-- ==== Sys2Proof/Word.lean ====
section
/-! DEFINITION. The bit-vector types of the CORE (spec/00_scope.md rules R6, R7). Every value is
an unsigned natural of a fixed width. -/

namespace Sys2Proof

/-- A byte: a general register, a timer, a memory cell, an immediate kk (R6, R21). -/
abbrev Byte := BitVec 8

/-- A 16-bit value: an instruction word, PC, I, a stack entry (R6, R90). -/
abbrev Word := BitVec 16

/-- A 12-bit address field nnn (R91). -/
abbrev Addr12 := BitVec 12

/-- The index of a general register V0 to VF, or of a key 0x0 to 0xF (R21, R32). -/
abbrev Nibble := Fin 16

end Sys2Proof
end

