-- ==== Sys2Proof/Config.lean ====
section
/-! DEFINITION. The implementation parameters of spec/00_scope.md rule R6: the sizes the source
fixes, the two values of the clipping parameter DRAW_CLIP, and the free draw of RND. The
default FONT is in Machine/Memory.lean. -/

namespace Sys2Proof.Config

/-- MEM_SIZE: the number of memory bytes, addresses 0x000 to 0xFFF (R6, R60). -/
def memSize : Nat := 4096

/-- PROG_BASE: where LOAD_PROGRAM writes and where PC starts (R6, R64). -/
def progBase : Nat := 0x200

/-- PROG_MAX: the longest program image, 0xFFF - 0x200 + 1 bytes (R6, R301). -/
def progMax : Nat := 3584

/-- FONT_SIZE: 16 glyphs of 5 bytes at 0x000 (R6, R64). -/
def fontSize : Nat := 80

/-- The parameter DRAW_CLIP (R6, R231, decision D14): the source gives two readings of which
pixels of a sprite are drawn and neither is confirmed, so the spec keeps both. -/
inductive DrawClip where
  /-- A pixel is drawn when its linear index is below 2048 (the spec's default). -/
  | linear
  /-- A pixel is drawn when its row is below 32 and its column below 64. -/
  | axis
  deriving DecidableEq, Repr

/-- FREE VALUE (log entry 5): the byte the `k`-th execution of RND draws (R182, decision D25).
Any byte, independent of every other draw: it has no body, so nothing can be proved of it. -/
opaque freeByte : Nat → Byte

end Sys2Proof.Config
end

