-- ==== Sys2Proof/Machine/State.lean ====
section
/-! DEFINITION. The state of the CORE (spec/10_state.md rules R20 to R36), the reasons a step can
stop, and the state after reset. State is plain data. `drawClip` and `draws` are the model's own
fields (log entries 4 and 5); every other field is state the spec names. -/

namespace Sys2Proof.Machine

/-- Memory as (address, byte) pairs in one canonical form: addresses strictly rising and below
4096, no pair equal to what an unlisted address reads as (Machine/Memory.lean; R60). -/
abbrev Memory := List Host.Cell

/-- The framebuffer, 64 x 32 pixels of one bit: row `r` of 32, column `c` its bit `c`; pixel
`fb[p]` is row `p / 64`, column `p mod 64` (R31; log entry 11). -/
abbrev Frame := Vector (BitVec 64) 32

/-- The halt causes (R271). -/
inductive HaltCause where
  /-- Decode of an illegal word; info is the word. -/
  | unknownInstruction
  /-- A one-byte access at an address of 4096 or more; info is the address. -/
  | memoryOutOfRange
  /-- SKP or SKNP with V[x] of 16 or more; info is V[x]. -/
  | keyIndexOutOfRange
  deriving DecidableEq, Repr

/-- What `raise Halt(cause, info)` reports (R9, R271). The info is a natural: the spec gives it no
width (log entry 17). -/
structure HaltReason where
  cause : HaltCause
  info : Nat
  deriving DecidableEq, Repr

/-- The run state: the key-input state machine and the halt record (R33). -/
inductive RunState where
  /-- RUNNING: a STEP executes. -/
  | running
  /-- AWAIT_KEY(r): `LD Vr, K` waits for a key; no STEP executes (R131, R285). -/
  | awaitKey (r : Nibble)
  /-- HALTED(cause, info, at): `fetchAddr` is the fetch address of the halting step; permanent
  until RESET (R272, R273). -/
  | halted (why : HaltReason) (fetchAddr : Word)
  deriving DecidableEq, Repr

/-- The non-fatal conditions of the stack controller (R275). -/
inductive Event where
  /-- A Push with 16 entries stored: the push is dropped. -/
  | stackOverflow
  /-- A Pop with the stack empty: 0x200 is returned. -/
  | stackUnderflow
  deriving DecidableEq, Repr

/-- The state of the CORE (R20). -/
structure State where
  /-- `V[0..15]`: the general registers; VF is `V[15]`, the flag register (R21, R22). -/
  v : Vector Byte 16
  /-- `PC`: the fetch address of the next instruction (R24). -/
  pc : Word
  /-- `I`: the index register (R26). -/
  i : Word
  /-- `DT`: the delay timer (R27). -/
  dt : Byte
  /-- `ST`: the sound timer (R28). -/
  st : Byte
  /-- `stack[0..15]`: the return addresses (R29). -/
  stack : Vector Word 16
  /-- The stack pointer, held as `SP + 1`, the number of stored entries: 0 is SP = -1 (empty),
  16 is SP = 15 (full) (R30; log entry 10). -/
  depth : Fin 17
  /-- `mem[0x000..0xFFF]` (R60). -/
  mem : Memory
  /-- `fb[0..2047]` (R31). -/
  fb : Frame
  /-- `keys[0..15]`: true is pressed (R32). -/
  keys : Vector Bool 16
  /-- The run state (R33). -/
  run : RunState
  /-- The output `draw_flag`: the last STEP executed a DRW (R34, R129). -/
  drawFlag : Bool
  /-- The output `events`: the conditions the last STEP raised, each at most once
  (R34, R130; log entry 12). -/
  events : List Event
  /-- The model's own field: the parameter DRAW_CLIP this machine was built with. No transaction
  changes it, so a statement about every state holds for both values (R231; log entry 4). -/
  drawClip : Config.DrawClip
  /-- The model's own field: how many RND draws were made; the next draw is
  `Config.freeByte draws` (R182; log entry 5). -/
  draws : Nat
  deriving DecidableEq, Repr

/-- Why a STEP has no transition (R131). The halts of R271 are no faults here: a halting STEP
takes the next state R272 describes, and it is the STEP after it that has none (log entry 7). -/
inductive Fault where
  /-- `step` in HALTED: no STEP executes until RESET (R131, R273). Safe: the hardware executes no
  instruction there either. -/
  | stepWhileHalted (why : HaltReason) (fetchAddr : Word)
  /-- `step` in AWAIT_KEY(r): the CORE holds until KEY_DOWN or RESET (R131, R285; log
  entry 8). Safe: the
  hardware executes no instruction there either. -/
  | stepWhileAwaitingKey (r : Nibble)
  deriving DecidableEq, Repr

/-- What the model gives no meaning to. -/
inductive Refusal where
  /-- Raised by `exec` for an instruction without a meaning. Safe. No arm raises it. -/
  | notModelled (mnemonic : String)
  /-- Raised by LOAD_PROGRAM of an image longer than 3584 bytes: refused, no transition (R301,
  decision D26). It is a host duty not to issue it; unsafe for a host that does. -/
  | imageTooLong (length : Nat)
  deriving DecidableEq, Repr

/-- The machine right after RESET with FONT and DRAW_CLIP at their defaults (R36, R300): PC
0x200, SP -1, the font in memory, RUNNING, draw_flag 0, events empty. The elements R36 leaves to
the parameter INIT are 0, the premise CLEAN of R37.
DESIGN CHOICE (log entries 1 and 2), unsafe: the spec gives them no value. RESET with any INIT is
`resetWith` in Machine/Transactions.lean. -/
def State.reset : State where
  v := Vector.replicate 16 0
  pc := 0x200
  i := 0
  dt := 0
  st := 0
  stack := Vector.replicate 16 0
  depth := 0
  mem := []
  fb := Vector.replicate 32 0
  keys := Vector.replicate 16 false
  run := .running
  drawFlag := false
  events := []
  drawClip := .linear
  draws := 0

end Sys2Proof.Machine
end

