-- ==== Sys2Proof/Machine/Flags.lean ====
section
/-! DEFINITION. The values written to VF (spec/42_alu.md rules R170, R177 to R181, R183;
spec/44_framebuffer.md rule R233). Each is computed from the operands before any write. -/

namespace Sys2Proof.Machine

/-- A flag value: 1 or 0. -/
def flagByte (b : Bool) : Byte := if b then 1 else 0

/-- Carry of an addition: the exact sum exceeds 255 (R177). -/
def carryFlag (a b : Byte) : Byte := flagByte (decide (a.toNat + b.toNat > 255))

/-- Not-borrow of `a - b`: 1 if and only if `a > b`, strictly (R178, R180; 90_conflicts.md C4). -/
def notBorrowFlag (a b : Byte) : Byte := flagByte (decide (a.toNat > b.toNat))

/-- The bit a right shift moves out: bit 0 (R179). -/
def shiftedOutLow (a : Byte) : Byte := flagByte (a.getLsbD 0)

/-- The bit a left shift moves out: bit 7 (R181). -/
def shiftedOutHigh (a : Byte) : Byte := flagByte (a.getLsbD 7)

/-- Collision of a draw (R233). -/
def collisionFlag (hit : Bool) : Byte := flagByte hit

end Sys2Proof.Machine
end

