-- ==== Sys2Proof/Machine/Operands.lean ====
section
/-! DEFINITION. Operand forms: what an instruction makes of a register before it uses it
(spec/42_alu.md to spec/45_keys_timers.md). Sums and products are computed on naturals and
reduced where the rule says so (R10). -/

namespace Sys2Proof.Machine

/-- `(a + b) mod 256` (R172, R177). -/
def sumByte (a b : Byte) : Byte := BitVec.ofNat 8 (a.toNat + b.toNat)

/-- `(a - b) mod 256`: `a - b + 256` when `a < b` (R178, R180). -/
def differenceByte (a b : Byte) : Byte := BitVec.ofNat 8 (a.toNat + 256 - b.toNat)

/-- `a >> 1` (R179). -/
def halfByte (a : Byte) : Byte := BitVec.ofNat 8 (a.toNat / 2)

/-- `(a << 1) mod 256` (R181). -/
def doubleByte (a : Byte) : Byte := BitVec.ofNat 8 (2 * a.toNat)

/-- `(I + V[x]) mod 65536` (R201). -/
def indexSum (i : Word) (a : Byte) : Word := BitVec.ofNat 16 (i.toNat + a.toNat)

/-- `zext_16(nnn) + V[0]`, at most 0x10FE: no reduction is needed (R151). -/
def offsetTarget (base : Word) (a : Byte) : Word := BitVec.ofNat 16 (base.toNat + a.toNat)

/-- The address of glyph `a`: `5 * a` for a digit, none for a value of 16 or more (R202). -/
def glyphAddress (a : Byte) : Option Word :=
  if a.toNat < 16 then some (BitVec.ofNat 16 (5 * a.toNat)) else none

/-- The hundreds, tens and ones digits (R203). -/
def bcdDigits (a : Byte) : List Byte :=
  [BitVec.ofNat 8 (a.toNat / 100), BitVec.ofNat 8 (a.toNat / 10 % 10), BitVec.ofNat 8 (a.toNat % 10)]

/-- The key a register names: its value when below 16, else the halt of SKP and SKNP
(R250, R251, decision D5). -/
def keyIndex (a : Byte) : Except HaltReason Nibble :=
  if h : a.toNat < 16 then .ok ⟨a.toNat, h⟩ else .error ⟨.keyIndexOutOfRange, a.toNat⟩

/-- The left column of a sprite: `V[x] mod 64` (R230). -/
def spriteColumn (a : Byte) : Nat := a.toNat % 64

/-- The top row of a sprite: `V[y] mod 32` (R230). -/
def spriteRow (a : Byte) : Nat := a.toNat % 32

end Sys2Proof.Machine
end

