-- ==== Sys2Proof/Syntax.lean ====
section
/-! DEFINITION. The 34 instructions of the CORE, one constructor per row of
spec/opcode_table.json (spec/30_encoding.md rules R94, R98), with the operands of their format
(R93). A register field is a `Nibble`, an immediate a `Byte`, an address an `Addr12`, so an
operand outside its field cannot be written down. SHR and SHL have the one operand x: their y
field is encoded and not read (R96). -/

namespace Sys2Proof

/-- An instruction of the CORE (R94). -/
inductive Instr where
  /-- `CLS`, 00E0 (R232). -/
  | cls
  /-- `RET`, 00EE (R144). -/
  | ret
  /-- `JP nnn`, 1nnn (R145). -/
  | jp (nnn : Addr12)
  /-- `CALL nnn`, 2nnn (R146). -/
  | call (nnn : Addr12)
  /-- `SE Vx, kk`, 3xkk (R147). -/
  | seImm (x : Nibble) (kk : Byte)
  /-- `SNE Vx, kk`, 4xkk (R148). -/
  | sneImm (x : Nibble) (kk : Byte)
  /-- `SE Vx, Vy`, 5xy0 (R149). -/
  | seReg (x y : Nibble)
  /-- `LD Vx, kk`, 6xkk (R171). -/
  | ldImm (x : Nibble) (kk : Byte)
  /-- `ADD Vx, kk`, 7xkk (R172). -/
  | addImm (x : Nibble) (kk : Byte)
  /-- `LD Vx, Vy`, 8xy0 (R173). -/
  | ldReg (x y : Nibble)
  /-- `OR Vx, Vy`, 8xy1 (R174). -/
  | orReg (x y : Nibble)
  /-- `AND Vx, Vy`, 8xy2 (R175). -/
  | andReg (x y : Nibble)
  /-- `XOR Vx, Vy`, 8xy3 (R176). -/
  | xorReg (x y : Nibble)
  /-- `ADD Vx, Vy`, 8xy4 (R177). -/
  | addReg (x y : Nibble)
  /-- `SUB Vx, Vy`, 8xy5 (R178). -/
  | subReg (x y : Nibble)
  /-- `SHR Vx`, 8xy6 with any y (R179). -/
  | shr (x : Nibble)
  /-- `SUBN Vx, Vy`, 8xy7 (R180). -/
  | subnReg (x y : Nibble)
  /-- `SHL Vx`, 8xyE with any y (R181). -/
  | shl (x : Nibble)
  /-- `SNE Vx, Vy`, 9xy0 (R150). -/
  | sneReg (x y : Nibble)
  /-- `LD I, nnn`, Annn (R200). -/
  | ldI (nnn : Addr12)
  /-- `JP V0, nnn`, Bnnn (R151). -/
  | jpV0 (nnn : Addr12)
  /-- `RND Vx, kk`, Cxkk (R182). -/
  | rnd (x : Nibble) (kk : Byte)
  /-- `DRW Vx, Vy, n`, Dxyn (R233). -/
  | drw (x y n : Nibble)
  /-- `SKP Vx`, Ex9E (R250). -/
  | skp (x : Nibble)
  /-- `SKNP Vx`, ExA1 (R251). -/
  | sknp (x : Nibble)
  /-- `LD Vx, DT`, Fx07 (R252). -/
  | ldVxDt (x : Nibble)
  /-- `LD Vx, K`, Fx0A (R253). -/
  | ldVxK (x : Nibble)
  /-- `LD DT, Vx`, Fx15 (R254). -/
  | ldDtVx (x : Nibble)
  /-- `LD ST, Vx`, Fx18 (R255). -/
  | ldStVx (x : Nibble)
  /-- `ADD I, Vx`, Fx1E (R201). -/
  | addI (x : Nibble)
  /-- `LD F, Vx`, Fx29 (R202). -/
  | ldF (x : Nibble)
  /-- `LD B, Vx`, Fx33 (R203). -/
  | ldB (x : Nibble)
  /-- `LD [I], Vx`, Fx55 (R204). -/
  | storeRegs (x : Nibble)
  /-- `LD Vx, [I]`, Fx65 (R205). -/
  | loadRegs (x : Nibble)
  deriving DecidableEq, Repr

/-- Why bytes hold no instruction. -/
inductive DecodeError where
  /-- The word matches no row of the opcode map: it is illegal (R95). -/
  | unknownInstruction (w : Word)
  /-- Fewer than two bytes: no instruction is shorter than one word (R90). -/
  | truncated
  deriving DecidableEq, Repr

end Sys2Proof
end

