-- ==== Sys2Proof/WellFormed.lean ====
section
/-! DEFINITION. What the types do not say by themselves: which 16-bit words are instructions
(the opcode map as mask and pattern, spec/30_encoding.md rules R94, R95) and which program
images the loader takes (spec/70_reset_and_hazards.md rule R301). Operand ranges need no check:
the fields of `Instr` have the widths of the encoding (R91). The table is written apart from
the decoder, so that the two can be proved to agree. -/

namespace Sys2Proof

/-- One row of the opcode map: a word belongs to it when its masked bits are the pattern. -/
structure OpRow where
  mnemonic : String
  pattern : Word
  mask : Word
  deriving DecidableEq, Repr

/-- The word is of this row: an exact match on the fields the row names (R94). -/
def OpRow.hits (r : OpRow) (w : Word) : Bool := w &&& r.mask == r.pattern

/-- Families 0 to 7 of the opcode map (R94). -/
def opRows0to7 : List OpRow :=
  [⟨"CLS", 0x00E0, 0xFFFF⟩, ⟨"RET", 0x00EE, 0xFFFF⟩, ⟨"JP_nnn", 0x1000, 0xF000⟩,
   ⟨"CALL_nnn", 0x2000, 0xF000⟩, ⟨"SE_Vx__kk", 0x3000, 0xF000⟩, ⟨"SNE_Vx__kk", 0x4000, 0xF000⟩,
   ⟨"SE_Vx__Vy", 0x5000, 0xF00F⟩, ⟨"LD_Vx__kk", 0x6000, 0xF000⟩, ⟨"ADD_Vx__kk", 0x7000, 0xF000⟩]

/-- Family 8 of the opcode map (R94). -/
def opRows8 : List OpRow :=
  [⟨"LD_Vx__Vy", 0x8000, 0xF00F⟩, ⟨"OR_Vx__Vy", 0x8001, 0xF00F⟩, ⟨"AND_Vx__Vy", 0x8002, 0xF00F⟩,
   ⟨"XOR_Vx__Vy", 0x8003, 0xF00F⟩, ⟨"ADD_Vx__Vy", 0x8004, 0xF00F⟩, ⟨"SUB_Vx__Vy", 0x8005, 0xF00F⟩,
   ⟨"SHR_Vx", 0x8006, 0xF00F⟩, ⟨"SUBN_Vx__Vy", 0x8007, 0xF00F⟩, ⟨"SHL_Vx", 0x800E, 0xF00F⟩]

/-- Families 9 to E of the opcode map (R94). -/
def opRows9toE : List OpRow :=
  [⟨"SNE_Vx__Vy", 0x9000, 0xF00F⟩, ⟨"LD_I__nnn", 0xA000, 0xF000⟩, ⟨"JP_V0__nnn", 0xB000, 0xF000⟩,
   ⟨"RND_Vx__kk", 0xC000, 0xF000⟩, ⟨"DRW_Vx__Vy__n", 0xD000, 0xF000⟩,
   ⟨"SKP_Vx", 0xE09E, 0xF0FF⟩, ⟨"SKNP_Vx", 0xE0A1, 0xF0FF⟩]

/-- Family F of the opcode map (R94). -/
def opRowsF : List OpRow :=
  [⟨"LD_Vx__DT", 0xF007, 0xF0FF⟩, ⟨"LD_Vx__K", 0xF00A, 0xF0FF⟩, ⟨"LD_DT__Vx", 0xF015, 0xF0FF⟩,
   ⟨"LD_ST__Vx", 0xF018, 0xF0FF⟩, ⟨"ADD_I__Vx", 0xF01E, 0xF0FF⟩, ⟨"LD_F__Vx", 0xF029, 0xF0FF⟩,
   ⟨"LD_B__Vx", 0xF033, 0xF0FF⟩, ⟨"LD__I___Vx", 0xF055, 0xF0FF⟩, ⟨"LD_Vx___I", 0xF065, 0xF0FF⟩]

/-- The whole opcode map: the 34 rows of R94 that are not illegal (R98). -/
def opcodeTable : List OpRow := opRows0to7 ++ opRows8 ++ opRows9toE ++ opRowsF

/-- The word is an instruction: it matches a row of the opcode map (R95). -/
def legalWord (w : Word) : Bool := opcodeTable.any (·.hits w)

/-- The loader takes the image: its length is at most PROG_MAX (R301, decision D26). -/
def imageFits (image : List Byte) : Bool := image.length ≤ Config.progMax

end Sys2Proof
end

