-- ==== Sys2Proof/Decode.lean ====
section
/-! DEFINITION. From bits to instructions and back (spec/30_encoding.md rules R90 to R97).
`decodeWord` is the opcode map of R94 read family by family; `decodeBytes` reads the
big-endian word of R66 first. Both are total and reject by name. `encode` writes the word of
an instruction from the same map. -/

namespace Sys2Proof

/-- `zext_16(v)`: the same natural as a 16-bit value (R7, R92). -/
def zext16 (a : Addr12) : Word := BitVec.ofNat 16 a.toNat

/-- The word whose high byte is `hi` and whose low byte is `lo`: `hi << 8 | lo` (R7, R66). -/
def wordOfBytes (hi lo : Byte) : Word := hi ++ lo

/-- Bits 15..8 of a word (R66). -/
def highByte (w : Word) : Byte := w.extractLsb' 8 8

/-- Bits 7..0 of a word (R66). -/
def lowByte (w : Word) : Byte := w.extractLsb' 0 8

/-- Field op, w[15:12] (R91). -/
def fieldOp (w : Word) : BitVec 4 := w.extractLsb' 12 4

/-- Field x, w[11:8] (R91). -/
def fieldX (w : Word) : Nibble := (w.extractLsb' 8 4).toFin

/-- Field y, w[7:4] (R91). -/
def fieldY (w : Word) : Nibble := (w.extractLsb' 4 4).toFin

/-- Field n, w[3:0] (R91). -/
def fieldN (w : Word) : Nibble := (w.extractLsb' 0 4).toFin

/-- Field kk, w[7:0] (R91). -/
def fieldKk (w : Word) : Byte := w.extractLsb' 0 8

/-- Field nnn, w[11:0] (R91). -/
def fieldNnn (w : Word) : Addr12 := w.extractLsb' 0 12

/-- Family 0: exactly two words are instructions (R94, R97). -/
def decodeFamily0 (w : Word) : Except DecodeError Instr :=
  if w = 0x00E0#16 then .ok .cls
  else if w = 0x00EE#16 then .ok .ret
  else .error (.unknownInstruction w)

/-- Family 8: the selector is n (R94). -/
def decodeFamily8 (w : Word) : Except DecodeError Instr :=
  match (fieldN w).val with
  | 0x0 => .ok (.ldReg (fieldX w) (fieldY w))
  | 0x1 => .ok (.orReg (fieldX w) (fieldY w))
  | 0x2 => .ok (.andReg (fieldX w) (fieldY w))
  | 0x3 => .ok (.xorReg (fieldX w) (fieldY w))
  | 0x4 => .ok (.addReg (fieldX w) (fieldY w))
  | 0x5 => .ok (.subReg (fieldX w) (fieldY w))
  | 0x6 => .ok (.shr (fieldX w))
  | 0x7 => .ok (.subnReg (fieldX w) (fieldY w))
  | 0xE => .ok (.shl (fieldX w))
  | _ => .error (.unknownInstruction w)

/-- Family E: the selector is kk (R94). -/
def decodeFamilyE (w : Word) : Except DecodeError Instr :=
  if fieldKk w = 0x9E#8 then .ok (.skp (fieldX w))
  else if fieldKk w = 0xA1#8 then .ok (.sknp (fieldX w))
  else .error (.unknownInstruction w)

/-- Family F: the selector is kk (R94). -/
def decodeFamilyF (w : Word) : Except DecodeError Instr :=
  if fieldKk w = 0x07#8 then .ok (.ldVxDt (fieldX w))
  else if fieldKk w = 0x0A#8 then .ok (.ldVxK (fieldX w))
  else if fieldKk w = 0x15#8 then .ok (.ldDtVx (fieldX w))
  else if fieldKk w = 0x18#8 then .ok (.ldStVx (fieldX w))
  else if fieldKk w = 0x1E#8 then .ok (.addI (fieldX w))
  else if fieldKk w = 0x29#8 then .ok (.ldF (fieldX w))
  else if fieldKk w = 0x33#8 then .ok (.ldB (fieldX w))
  else if fieldKk w = 0x55#8 then .ok (.storeRegs (fieldX w))
  else if fieldKk w = 0x65#8 then .ok (.loadRegs (fieldX w))
  else .error (.unknownInstruction w)

/-- The opcode map: the instruction a word selects, or the rejection of an illegal word
(R94, R95, R126). It reads nothing but the word. -/
def decodeWord (w : Word) : Except DecodeError Instr :=
  match (fieldOp w).toNat with
  | 0x0 => decodeFamily0 w
  | 0x1 => .ok (.jp (fieldNnn w))
  | 0x2 => .ok (.call (fieldNnn w))
  | 0x3 => .ok (.seImm (fieldX w) (fieldKk w))
  | 0x4 => .ok (.sneImm (fieldX w) (fieldKk w))
  | 0x5 => if (fieldN w).val = 0 then .ok (.seReg (fieldX w) (fieldY w))
           else .error (.unknownInstruction w)
  | 0x6 => .ok (.ldImm (fieldX w) (fieldKk w))
  | 0x7 => .ok (.addImm (fieldX w) (fieldKk w))
  | 0x8 => decodeFamily8 w
  | 0x9 => if (fieldN w).val = 0 then .ok (.sneReg (fieldX w) (fieldY w))
           else .error (.unknownInstruction w)
  | 0xA => .ok (.ldI (fieldNnn w))
  | 0xB => .ok (.jpV0 (fieldNnn w))
  | 0xC => .ok (.rnd (fieldX w) (fieldKk w))
  | 0xD => .ok (.drw (fieldX w) (fieldY w) (fieldN w))
  | 0xE => decodeFamilyE w
  | 0xF => decodeFamilyF w
  | _ => .error (.unknownInstruction w)

/-- The first instruction of a byte sequence and the bytes after it: one big-endian word
(R66, R90). -/
def decodeBytes : List Byte → Except DecodeError (Instr × List Byte)
  | hi :: lo :: rest =>
    match decodeWord (wordOfBytes hi lo) with
    | .ok i => .ok (i, rest)
    | .error e => .error e
  | _ => .error .truncated

/-- The four bits of a register or count field (R91). -/
def nibbleBits (x : Nibble) : BitVec 4 := BitVec.ofFin x

/-- Format A: op and a 12-bit address (R93). -/
def formatA (op : BitVec 4) (nnn : Addr12) : Word := op ++ nnn

/-- Formats RK and RS: op, x and a low byte, immediate or selector (R93). -/
def formatRK (op : BitVec 4) (x : Nibble) (kk : Byte) : Word := op ++ (nibbleBits x ++ kk)

/-- Formats RR and RRN: op, x, y and a low nibble, selector or count (R93). -/
def formatRR (op : BitVec 4) (x y : Nibble) (n : BitVec 4) : Word :=
  op ++ (nibbleBits x ++ (nibbleBits y ++ n))

/-- The word of an instruction (R94); SHR and SHL are written with y = 0 (R99). -/
def encode : Instr → Word
  | .cls => 0x00E0
  | .ret => 0x00EE
  | .jp nnn => formatA 0x1 nnn
  | .call nnn => formatA 0x2 nnn
  | .seImm x kk => formatRK 0x3 x kk
  | .sneImm x kk => formatRK 0x4 x kk
  | .seReg x y => formatRR 0x5 x y 0x0
  | .ldImm x kk => formatRK 0x6 x kk
  | .addImm x kk => formatRK 0x7 x kk
  | .ldReg x y => formatRR 0x8 x y 0x0
  | .orReg x y => formatRR 0x8 x y 0x1
  | .andReg x y => formatRR 0x8 x y 0x2
  | .xorReg x y => formatRR 0x8 x y 0x3
  | .addReg x y => formatRR 0x8 x y 0x4
  | .subReg x y => formatRR 0x8 x y 0x5
  | .shr x => formatRR 0x8 x 0 0x6
  | .subnReg x y => formatRR 0x8 x y 0x7
  | .shl x => formatRR 0x8 x 0 0xE
  | .sneReg x y => formatRR 0x9 x y 0x0
  | .ldI nnn => formatA 0xA nnn
  | .jpV0 nnn => formatA 0xB nnn
  | .rnd x kk => formatRK 0xC x kk
  | .drw x y n => formatRR 0xD x y (nibbleBits n)
  | .skp x => formatRK 0xE x 0x9E
  | .sknp x => formatRK 0xE x 0xA1
  | .ldVxDt x => formatRK 0xF x 0x07
  | .ldVxK x => formatRK 0xF x 0x0A
  | .ldDtVx x => formatRK 0xF x 0x15
  | .ldStVx x => formatRK 0xF x 0x18
  | .addI x => formatRK 0xF x 0x1E
  | .ldF x => formatRK 0xF x 0x29
  | .ldB x => formatRK 0xF x 0x33
  | .storeRegs x => formatRK 0xF x 0x55
  | .loadRegs x => formatRK 0xF x 0x65

/-- The bytes of an instruction, the high byte at the lower address (R66). -/
def encodeBytes (i : Instr) : List Byte := [highByte (encode i), lowByte (encode i)]

/-- The two bytes of a table word in the order memory holds them: bits 15..8 first (R66).
`nbits` is how many bits the table gives the row; bits from `nbits` up count as 0. -/
def tableWordBytes (nbits w : Nat) : List Byte :=
  let word : Word := BitVec.ofNat 16 (w % 2 ^ nbits)
  [highByte word, lowByte word]

/-- The instruction the decoder reads from the bytes of a table word. -/
def decodeTableWord (nbits w : Nat) : Option Instr :=
  match decodeBytes (tableWordBytes nbits w) with
  | .ok (i, _) => some i
  | .error _ => none

end Sys2Proof
end

