-- ==== Sys2Proof/Machine/Memory.lean ====
section
/-! DEFINITION. The memory unit (spec/20_memory.md rules R60 to R69): what an unlisted address
reads as, reading and writing one byte, the canonical form, the access primitives MemRead and
MemWrite, and the ascending block accesses the instructions are made of. -/

namespace Sys2Proof.Machine

/-- The default FONT of R65, glyph 0 to glyph 7.
PRESUMED (log entry 3): the byte values come from general knowledge, as R65 says; unsafe. -/
def fontLow : List Byte :=
  [0xF0, 0x90, 0x90, 0x90, 0xF0,
   0x20, 0x60, 0x20, 0x20, 0x70,
   0xF0, 0x10, 0xF0, 0x80, 0xF0,
   0xF0, 0x10, 0xF0, 0x10, 0xF0,
   0x90, 0x90, 0xF0, 0x10, 0x10,
   0xF0, 0x80, 0xF0, 0x10, 0xF0,
   0xF0, 0x80, 0xF0, 0x90, 0xF0,
   0xF0, 0x10, 0x20, 0x40, 0x40]

/-- The default FONT of R65, glyph 8 to glyph F. PRESUMED (log entry 3); unsafe. -/
def fontHigh : List Byte :=
  [0xF0, 0x90, 0xF0, 0x90, 0xF0,
   0xF0, 0x90, 0xF0, 0x10, 0xF0,
   0xF0, 0x90, 0xF0, 0x90, 0x90,
   0xE0, 0x90, 0xE0, 0x90, 0xE0,
   0xF0, 0x80, 0x80, 0x80, 0xF0,
   0xE0, 0x90, 0x90, 0x90, 0xE0,
   0xF0, 0x80, 0xF0, 0x80, 0xF0,
   0xF0, 0x80, 0xF0, 0x80, 0x80]

/-- The byte of the default FONT at address `a` of the font region (R65). -/
def fontByte (a : Nat) : Byte := (fontLow ++ fontHigh).getD a 0

/-- What an address no pair lists reads as: the default FONT at 0x000 to 0x04F (R36, R65), and 0
elsewhere.
DESIGN CHOICE (log entry 2), unsafe: R36 leaves mem[0x050..0xFFF] to INIT. -/
def background (a : Nat) : Byte := if a < Config.fontSize then fontByte a else 0

/-- The byte at `a`. -/
def Memory.read : Memory → Nat → Byte
  | [], a => background a
  | (k, b) :: m, a => if k = a then b else Memory.read m a

/-- Memory with byte `b` at `a`, in canonical form again: a byte equal to the background is not
listed. -/
def Memory.write : Memory → Nat → Byte → Memory
  | [], a, b => if b = background a then [] else [(a, b)]
  | (k, c) :: m, a, b =>
    if a < k then
      if b = background a then (k, c) :: m else (a, b) :: (k, c) :: m
    else if a = k then
      if b = background a then m else (a, b) :: m
    else (k, c) :: Memory.write m a b

/-- The canonical form from address `lo` on: addresses rising, below 4096, no background byte. -/
def Memory.wfFrom : Nat → Memory → Bool
  | _, [] => true
  | lo, (k, b) :: m =>
    decide (lo ≤ k) && decide (k < Config.memSize) && decide (b ≠ background k)
      && Memory.wfFrom (k + 1) m

/-- The canonical form of memory: equal contents are equal lists. -/
def Memory.wf (m : Memory) : Bool := Memory.wfFrom 0 m

/-- The canonical memory whose byte at every address `a` below 4096 is `f a`. -/
def Memory.ofBytes (f : Nat → Byte) : Memory :=
  (List.range Config.memSize).filterMap
    fun a => if f a = background a then none else some (a, f a)

/-- `MemRead(a, 1)` (R61): the byte at `a`, or the halt of an address of 4096 or more. -/
def memRead (m : Memory) (a : Nat) : Except HaltReason Byte :=
  if a < Config.memSize then .ok (m.read a) else .error ⟨.memoryOutOfRange, a⟩

/-- `MemWrite(a, 1, v)` (R62): no address below 4096 is protected. -/
def memWrite (m : Memory) (a : Nat) (b : Byte) : Except HaltReason Memory :=
  if a < Config.memSize then .ok (m.write a b) else .error ⟨.memoryOutOfRange, a⟩

/-- One MemWrite per byte of the list, at `a`, `a + 1`, ... in ascending order; the first address
out of range halts (R69, R274). -/
def storeBytes (m : Memory) (a : Nat) : List Byte → Except HaltReason Memory
  | [] => .ok m
  | b :: bs =>
    match memWrite m a b with
    | .ok m' => storeBytes m' (a + 1) bs
    | .error why => .error why

/-- `n` MemReads at `a`, `a + 1`, ... in ascending order; the first address out of range halts
(R69, R274). -/
def loadBytes (m : Memory) (a : Nat) : Nat → Except HaltReason (List Byte)
  | 0 => .ok []
  | n + 1 =>
    match memRead m a with
    | .ok b =>
      match loadBytes m (a + 1) n with
      | .ok bs => .ok (b :: bs)
      | .error why => .error why
    | .error why => .error why

end Sys2Proof.Machine
end

