-- ==== Sys2Proof/Machine/Ops.lean ====
section
/-! DEFINITION. The shared operations of the engine: registers, AdvancePC, Skip, the stack
controller, fetch, the halt, and the frame of a step around an instruction's effect
(spec/40_engine_cycle.md, spec/41_control_transfer.md, spec/60_exceptions.md). -/

namespace Sys2Proof.Machine

/-- `V[x]` (R8, R21). -/
def State.reg (s : State) (x : Nibble) : Byte := s.v[x]

/-- `V[x] <- b` (R8, R21). -/
def State.setReg (s : State) (x : Nibble) (b : Byte) : State := { s with v := s.v.set x b }

/-- VF, the flag register (R22). -/
def vf : Nibble := 15

/-- `V[k] <- bs[0]`, `V[k + 1] <- bs[1]`, ... (R205). -/
def setRegsFrom (k : Nat) (bs : List Byte) (s : State) : State :=
  match bs with
  | [] => s
  | b :: bs => setRegsFrom (k + 1) bs { s with v := s.v.setIfInBounds k b }

/-- `V[0]` to `V[x]`, in order (R204). -/
def regsUpTo (s : State) (x : Nibble) : List Byte := s.v.toList.take (x.val + 1)

/-- `keys[k]` (R32). -/
def State.key (s : State) (k : Nibble) : Bool := s.keys[k]

/-- `keys[0..15] <- 0` (R128, R277). -/
def State.clearKeys (s : State) : State := { s with keys := Vector.replicate 16 false }

/-- `SP`, from -1 (empty) to 15 (full) (R30). -/
def State.sp (s : State) : Int := (s.depth.val : Int) - 1

/-- The value AdvancePC gives PC (R124): plus 2 within [0x200, 0xFFF), else 0x200. -/
def advancedPc (pc : Word) : Word :=
  if 0x200 ≤ pc.toNat ∧ pc.toNat < 0xFFF then BitVec.ofNat 16 (pc.toNat + 2) else 0x200

/-- `AdvancePC()` (R124). -/
def State.advancePc (s : State) : State := { s with pc := advancedPc s.pc }

/-- `PC <- target` (R8). -/
def State.jump (s : State) (target : Word) : State := { s with pc := target }

/-- `if c then Skip()`, where Skip is AdvancePC once more (R143). -/
def State.skipIf (s : State) (c : Bool) : State := if c then s.advancePc else s

/-- `emit Event(e)`: `events` is a set (R275). -/
def State.emit (s : State) (e : Event) : State :=
  { s with events := if e ∈ s.events then s.events else e :: s.events }

/-- `Push(a)` (R140): dropped with STACK_OVERFLOW when 16 entries are stored. -/
def State.push (s : State) (a : Word) : State :=
  if h : s.depth.val < 16 then
    { s with stack := s.stack.set s.depth.val a, depth := ⟨s.depth.val + 1, by omega⟩ }
  else s.emit .stackOverflow

/-- The address `Pop()` returns (R141): the most recent entry, or 0x200 when empty. -/
def State.popValue (s : State) : Word :=
  if h : 0 < s.depth.val then s.stack[s.depth.val - 1]'(by omega) else 0x200

/-- The state `Pop()` leaves (R141): one entry fewer, or STACK_UNDERFLOW when empty. -/
def State.popped (s : State) : State :=
  if 0 < s.depth.val then { s with depth := ⟨s.depth.val - 1, by omega⟩ }
  else s.emit .stackUnderflow

/-- The three phases of a flag-writing ALU instruction after its operands are copied: the flag to
VF, then the result to V[x], so that x = F ends with the result (R23, R170). -/
def State.writeFlagThenResult (s : State) (x : Nibble) (flag result : Byte) : State :=
  (s.setReg vf flag).setReg x result

/-- The fetch of R123: the big-endian word at PC, or the halt of the first byte out of range. -/
def fetchWord (s : State) : Except HaltReason Word :=
  match memRead s.mem s.pc.toNat with
  | .error why => .error why
  | .ok hi =>
    match memRead s.mem (s.pc.toNat + 1) with
    | .error why => .error why
    | .ok lo => .ok (wordOfBytes hi lo)

/-- The state the execute phase starts from: events emptied at the start of the step and PC
advanced by the fetch (R122, R123, R130). -/
def State.afterFetch (s : State) : State := { s with events := [] }.advancePc

/-- The end-of-step actions of a step that does not halt: keys cleared, draw_flag set
(R128, R129). -/
def State.endStep (s : State) (isDraw : Bool) : State := { s.clearKeys with drawFlag := isDraw }

/-- TAKING A HALT: `raise Halt(cause, info)` (R272), the CORE's only exception, in the one place
it is taken. `s` is the state with the execute phase's writes already discarded: PC is the fetch
address if the fetch halted, else the advanced PC; `fetchAddr` is recorded. Keys are kept,
draw_flag becomes 0, and there is no handler (R270). There is no return from it: only RESET
leaves HALTED (R273, `resetWith`). -/
def raiseHalt (why : HaltReason) (fetchAddr : Word) (s : State) :
    Host.Outcome State Fault Refusal :=
  .next { s with run := .halted why fetchAddr, drawFlag := false }

/-- A halt of the fetch: PC stays the fetch address (R123). -/
def haltInFetch (why : HaltReason) (s : State) : Host.Outcome State Fault Refusal :=
  raiseHalt why s.pc { s with events := [] }

/-- A halt after the fetch, in decode or in the execute phase: the fetch's advance is kept and
every write of the execute phase is discarded (R126, R127). No instruction both emits an event
and halts, so `events` is empty. -/
def haltAfterFetch (why : HaltReason) (s : State) : Host.Outcome State Fault Refusal :=
  raiseHalt why s.pc s.afterFetch

/-- The halt of an illegal word (R95, R126). -/
def haltUnknown (w : Word) (s : State) : Host.Outcome State Fault Refusal :=
  haltAfterFetch ⟨.unknownInstruction, w.toNat⟩ s

/-- One instruction's part of a STEP, from the state before the fetch: the fetch's effects, the
execute phase `effect`, then the end-of-step actions, or the halt it raises
(R122, R127 to R130). -/
def runChecked (isDraw : Bool) (effect : State → Except HaltReason State) (s : State) :
    Host.Outcome State Fault Refusal :=
  match effect s.afterFetch with
  | .ok t => .next (t.endStep isDraw)
  | .error why => haltAfterFetch why s

/-- `runChecked` for an instruction that raises no halt and draws nothing. -/
def runPlain (effect : State → State) (s : State) : Host.Outcome State Fault Refusal :=
  .next ((effect s.afterFetch).endStep false)

/-- A state in which the next STEP fetches: PC as it is if two bytes can be fetched there, else
0x200, and RUNNING (used to place a word for the next step; log entry 14). -/
def readyToFetch (s : State) : State :=
  { s with
    pc := if s.pc.toNat + 1 < Config.memSize then s.pc else 0x200
    run := .running }

/-- The bytes of `bs` written from the fetch address on. -/
def placeAtPc (bs : List Byte) (s : State) : State :=
  match storeBytes s.mem s.pc.toNat bs with
  | .ok m => { s with mem := m }
  | .error _ => s

end Sys2Proof.Machine
end

