-- ==== Sys2Proof/Machine/Alu.lean ====
section
/-! DEFINITION. Register loads and the ALU (spec/42_alu.md): the immediate forms, the 8xyn family
and RND. None of them can halt. -/

namespace Sys2Proof.Machine

/-- `LD Vx, kk`, 6xkk (R171). -/
def execLdImm (x : Nibble) (kk : Byte) (s : State) : Host.Outcome State Fault Refusal :=
  runPlain (fun t => t.setReg x kk) s

/-- `ADD Vx, kk`, 7xkk (R172): wraps modulo 256, no carry flag. -/
def execAddImm (x : Nibble) (kk : Byte) (s : State) : Host.Outcome State Fault Refusal :=
  runPlain (fun t => t.setReg x (sumByte (t.reg x) kk)) s

/-- `LD Vx, Vy`, 8xy0 (R173). -/
def execLdReg (x y : Nibble) (s : State) : Host.Outcome State Fault Refusal :=
  runPlain (fun t => t.setReg x (t.reg y)) s

/-- `OR Vx, Vy`, 8xy1 (R174): VF is no flag output. -/
def execOrReg (x y : Nibble) (s : State) : Host.Outcome State Fault Refusal :=
  runPlain (fun t => t.setReg x (t.reg x ||| t.reg y)) s

/-- `AND Vx, Vy`, 8xy2 (R175): VF is no flag output. -/
def execAndReg (x y : Nibble) (s : State) : Host.Outcome State Fault Refusal :=
  runPlain (fun t => t.setReg x (t.reg x &&& t.reg y)) s

/-- `XOR Vx, Vy`, 8xy3 (R176): VF is no flag output. -/
def execXorReg (x y : Nibble) (s : State) : Host.Outcome State Fault Refusal :=
  runPlain (fun t => t.setReg x (t.reg x ^^^ t.reg y)) s

/-- `ADD Vx, Vy`, 8xy4 (R177): carry into VF. -/
def execAddReg (x y : Nibble) (s : State) : Host.Outcome State Fault Refusal :=
  runPlain (fun t => t.writeFlagThenResult x
    (carryFlag (t.reg x) (t.reg y)) (sumByte (t.reg x) (t.reg y))) s

/-- `SUB Vx, Vy`, 8xy5 (R178): strict not-borrow of `V[x] - V[y]` into VF. -/
def execSubReg (x y : Nibble) (s : State) : Host.Outcome State Fault Refusal :=
  runPlain (fun t => t.writeFlagThenResult x
    (notBorrowFlag (t.reg x) (t.reg y)) (differenceByte (t.reg x) (t.reg y))) s

/-- `SHR Vx`, 8xy6 (R179): the shift is of V[x] in place; V[y] is not read. -/
def execShr (x : Nibble) (s : State) : Host.Outcome State Fault Refusal :=
  runPlain (fun t => t.writeFlagThenResult x (shiftedOutLow (t.reg x)) (halfByte (t.reg x))) s

/-- `SUBN Vx, Vy`, 8xy7 (R180): strict not-borrow of `V[y] - V[x]` into VF. -/
def execSubnReg (x y : Nibble) (s : State) : Host.Outcome State Fault Refusal :=
  runPlain (fun t => t.writeFlagThenResult x
    (notBorrowFlag (t.reg y) (t.reg x)) (differenceByte (t.reg y) (t.reg x))) s

/-- `SHL Vx`, 8xyE (R181): the shift is of V[x] in place; V[y] is not read. -/
def execShl (x : Nibble) (s : State) : Host.Outcome State Fault Refusal :=
  runPlain (fun t => t.writeFlagThenResult x (shiftedOutHigh (t.reg x)) (doubleByte (t.reg x))) s

/-- `RND Vx, kk`, Cxkk (R182): the draw is the free value of the model's draw counter, which
advances so that the next draw is another one (log entry 5). -/
def execRnd (x : Nibble) (kk : Byte) (s : State) : Host.Outcome State Fault Refusal :=
  runPlain (fun t => { t.setReg x (Config.freeByte t.draws &&& kk) with draws := t.draws + 1 }) s

end Sys2Proof.Machine
end

