-- ==== Sys2Proof/Machine/Control.lean ====
section
/-! DEFINITION. Control transfer (spec/41_control_transfer.md): RET, JP, CALL, the skips on
registers and immediates, JP V0. The state an effect receives holds the advanced PC (R132). -/

namespace Sys2Proof.Machine

/-- `RET`, 00EE (R144): `PC <- Pop()`. -/
def execRet (s : State) : Host.Outcome State Fault Refusal :=
  runPlain (fun t => t.popped.jump t.popValue) s

/-- `JP nnn`, 1nnn (R145): `PC <- zext_16(nnn)`. -/
def execJp (nnn : Addr12) (s : State) : Host.Outcome State Fault Refusal :=
  runPlain (fun t => t.jump (zext16 nnn)) s

/-- `CALL nnn`, 2nnn (R146): `Push(PC)` of the advanced PC, then `PC <- zext_16(nnn)`. -/
def execCall (nnn : Addr12) (s : State) : Host.Outcome State Fault Refusal :=
  runPlain (fun t => (t.push t.pc).jump (zext16 nnn)) s

/-- `SE Vx, kk`, 3xkk (R147). -/
def execSeImm (x : Nibble) (kk : Byte) (s : State) : Host.Outcome State Fault Refusal :=
  runPlain (fun t => t.skipIf (t.reg x == kk)) s

/-- `SNE Vx, kk`, 4xkk (R148). -/
def execSneImm (x : Nibble) (kk : Byte) (s : State) : Host.Outcome State Fault Refusal :=
  runPlain (fun t => t.skipIf (t.reg x != kk)) s

/-- `SE Vx, Vy`, 5xy0 (R149). -/
def execSeReg (x y : Nibble) (s : State) : Host.Outcome State Fault Refusal :=
  runPlain (fun t => t.skipIf (t.reg x == t.reg y)) s

/-- `SNE Vx, Vy`, 9xy0 (R150). -/
def execSneReg (x y : Nibble) (s : State) : Host.Outcome State Fault Refusal :=
  runPlain (fun t => t.skipIf (t.reg x != t.reg y)) s

/-- `JP V0, nnn`, Bnnn (R151): `PC <- zext_16(nnn) + V[0]`, not masked. -/
def execJpV0 (nnn : Addr12) (s : State) : Host.Outcome State Fault Refusal :=
  runPlain (fun t => t.jump (offsetTarget (zext16 nnn) (t.reg 0))) s

end Sys2Proof.Machine
end

