-- ==== Sys2Proof/Machine/Framebuffer.lean ====
section
/-! DEFINITION. The framebuffer XOR write unit (spec/44_framebuffer.md): pixel addressing,
clipping, CLS and DRW. -/

namespace Sys2Proof.Machine

/-- `fb[p]` (R31): row `p / 64`, column `p mod 64`; there is no pixel from 2048 on. -/
def Frame.pixel (f : Frame) (p : Nat) : Bool :=
  if h : p / 64 < 32 then f[p / 64].getLsbD (p % 64) else false

/-- `fb[p] <- fb[p] ^ 1` (R233). -/
def Frame.toggle (f : Frame) (p : Nat) : Frame :=
  if h : p / 64 < 32 then f.set (p / 64) (f[p / 64] ^^^ BitVec.twoPow 64 (p % 64)) else f

/-- Every pixel 0 (R232). -/
def Frame.blank : Frame := Vector.replicate 32 0

/-- `InFB(r, c)` (R231), for both values of DRAW_CLIP. -/
def inFrame : Config.DrawClip → Nat → Nat → Bool
  | .linear, r, c => decide (r * 64 + c < 2048)
  | .axis, r, c => decide (r < 32) && decide (c < 64)

/-- The bit of a sprite byte at column `col`: bit 7 is the leftmost pixel (R234).
PRESUMED by the spec from general knowledge (log entry 6), unsafe: a reversed order would mirror
every group of 8 pixels. -/
def spriteBit (byte : Byte) (col : Nat) : Bool := byte.getLsbD (7 - col)

/-- What a draw changes: the pixels, and whether a 1 bit met a pixel that was 1. -/
structure Canvas where
  frame : Frame
  hit : Bool
  deriving DecidableEq, Repr

/-- The body of DRW's inner loop for one column of one row (R233). -/
def drawPixel (clip : Config.DrawClip) (r x0 : Nat) (byte : Byte) (c : Canvas) (col : Nat) :
    Canvas :=
  if spriteBit byte col && inFrame clip r (x0 + col) then
    ⟨c.frame.toggle (r * 64 + (x0 + col)), c.hit || c.frame.pixel (r * 64 + (x0 + col))⟩
  else c

/-- One sprite row: columns 0 to 7 in order (R233). -/
def drawRow (clip : Config.DrawClip) (r x0 : Nat) (byte : Byte) (c : Canvas) : Canvas :=
  (List.range 8).foldl (drawPixel clip r x0 byte) c

/-- The sprite rows, from absolute row `r` down (R233). -/
def drawRows (clip : Config.DrawClip) (x0 : Nat) : Nat → List Byte → Canvas → Canvas
  | _, [], c => c
  | r, byte :: rows, c => drawRows clip x0 (r + 1) rows (drawRow clip r x0 byte c)

/-- `CLS`, 00E0 (R232): VF is not written and the step is no draw (R129). -/
def execCls (s : State) : Host.Outcome State Fault Refusal :=
  runPlain (fun t => { t with fb := Frame.blank }) s

/-- The execute phase of DRW (R233): the coordinates are read before VF is reset; every row is
read, drawn or not, and a row out of range halts with nothing drawn. -/
def drawEffect (x y n : Nibble) (t : State) : Except HaltReason State :=
  match loadBytes t.mem t.i.toNat n.val with
  | .error why => .error why
  | .ok rows =>
    let c := drawRows t.drawClip (spriteColumn (t.reg x)) (spriteRow (t.reg y)) rows ⟨t.fb, false⟩
    .ok { t.setReg vf (collisionFlag c.hit) with fb := c.frame }

/-- `DRW Vx, Vy, n`, Dxyn (R233). -/
def execDrw (x y n : Nibble) (s : State) : Host.Outcome State Fault Refusal :=
  runChecked true (drawEffect x y n) s

end Sys2Proof.Machine
end

