-- ==== Sys2Proof/Machine/Index.lean ====
section
/-! DEFINITION. The index register and the memory instructions (spec/43_index_memory.md). An
access that halts leaves no write behind: the new memory or registers are taken only when every
access succeeded (R127). -/

namespace Sys2Proof.Machine

/-- `LD I, nnn`, Annn (R200). -/
def execLdI (nnn : Addr12) (s : State) : Host.Outcome State Fault Refusal :=
  runPlain (fun t => { t with i := zext16 nnn }) s

/-- `ADD I, Vx`, Fx1E (R201): wraps at 16 bits, VF not written. -/
def execAddI (x : Nibble) (s : State) : Host.Outcome State Fault Refusal :=
  runPlain (fun t => { t with i := indexSum t.i (t.reg x) }) s

/-- `LD F, Vx`, Fx29 (R202): I unchanged when V[x] is 16 or more. -/
def execLdF (x : Nibble) (s : State) : Host.Outcome State Fault Refusal :=
  runPlain (fun t => { t with i := (glyphAddress (t.reg x)).getD t.i }) s

/-- `bs` stored from address I on, or the halt (R203, R204). -/
def storeAtI (bs : List Byte) (t : State) : Except HaltReason State :=
  match storeBytes t.mem t.i.toNat bs with
  | .ok m => .ok { t with mem := m }
  | .error why => .error why

/-- `LD B, Vx`, Fx33 (R203): three digits at I, I + 1, I + 2. -/
def execLdB (x : Nibble) (s : State) : Host.Outcome State Fault Refusal :=
  runChecked false (fun t => storeAtI (bcdDigits (t.reg x)) t) s

/-- `LD [I], Vx`, Fx55 (R204): V0 to Vx at I to I + x; I unchanged. -/
def execStoreRegs (x : Nibble) (s : State) : Host.Outcome State Fault Refusal :=
  runChecked false (fun t => storeAtI (regsUpTo t x) t) s

/-- `V[0..n-1]` loaded from address I on, or the halt (R205). -/
def loadFromI (n : Nat) (t : State) : Except HaltReason State :=
  match loadBytes t.mem t.i.toNat n with
  | .ok bs => .ok (setRegsFrom 0 bs t)
  | .error why => .error why

/-- `LD Vx, [I]`, Fx65 (R205): V0 to Vx from I to I + x; I unchanged. -/
def execLoadRegs (x : Nibble) (s : State) : Host.Outcome State Fault Refusal :=
  runChecked false (loadFromI (x.val + 1)) s

end Sys2Proof.Machine
end

