-- ==== Sys2Proof/Machine/KeysTimers.lean ====
section
/-! DEFINITION. Key and timer instructions (spec/45_keys_timers.md). -/

namespace Sys2Proof.Machine

/-- The execute phase of SKP and SKNP (R250, R251): skip if the key V[x] names is in the state
`pressed`; a value of 16 or more halts. -/
def skipOnKey (x : Nibble) (pressed : Bool) (t : State) : Except HaltReason State :=
  match keyIndex (t.reg x) with
  | .ok k => .ok (t.skipIf (t.key k == pressed))
  | .error why => .error why

/-- `SKP Vx`, Ex9E (R250). -/
def execSkp (x : Nibble) (s : State) : Host.Outcome State Fault Refusal :=
  runChecked false (skipOnKey x true) s

/-- `SKNP Vx`, ExA1 (R251). -/
def execSknp (x : Nibble) (s : State) : Host.Outcome State Fault Refusal :=
  runChecked false (skipOnKey x false) s

/-- `LD Vx, DT`, Fx07 (R252). -/
def execLdVxDt (x : Nibble) (s : State) : Host.Outcome State Fault Refusal :=
  runPlain (fun t => t.setReg x t.dt) s

/-- `LD Vx, K`, Fx0A (R253): the run state becomes AWAIT_KEY(x); KEY_DOWN delivers the key
(R277). -/
def execLdVxK (x : Nibble) (s : State) : Host.Outcome State Fault Refusal :=
  runPlain (fun t => { t with run := .awaitKey x }) s

/-- `LD DT, Vx`, Fx15 (R254). -/
def execLdDtVx (x : Nibble) (s : State) : Host.Outcome State Fault Refusal :=
  runPlain (fun t => { t with dt := t.reg x }) s

/-- `LD ST, Vx`, Fx18 (R255). -/
def execLdStVx (x : Nibble) (s : State) : Host.Outcome State Fault Refusal :=
  runPlain (fun t => { t with st := t.reg x }) s

end Sys2Proof.Machine
end

