-- ==== Sys2Proof/Machine/Step.lean ====
section
/-! DEFINITION. One STEP of the CORE (spec/40_engine_cycle.md rules R122, R126, R131), and the
placing of a word where the next STEP fetches. -/

namespace Sys2Proof.Machine

/-- STEP (R122): fetch, decode, execute; no transition in AWAIT_KEY or HALTED (R131). -/
def step (s : State) : Host.Outcome State Fault Refusal :=
  match s.run with
  | .halted why fetchAddr => .fault (.stepWhileHalted why fetchAddr)
  | .awaitKey r => .fault (.stepWhileAwaitingKey r)
  | .running =>
    match fetchWord s with
    | .error why => haltInFetch why s
    | .ok w =>
      match decodeWord w with
      | .ok i => exec i s
      | .error _ => haltUnknown w s

/-- `s` with the instruction of table word `w` at the fetch address, so that the next `step`
fetches and runs it. It stands for LOAD_PROGRAM of that word (log entries 13 and 14). -/
def State.withFetchWord (s : State) (nbits w : Nat) : State :=
  placeAtPc (tableWordBytes nbits w) (readyToFetch s)

end Sys2Proof.Machine
end

