-- ==== Sys2Proof/Machine/Outputs.lean ====
section
/-! DEFINITION. The outputs the host reads between transactions (spec/10_state.md rule R34). The
outputs `draw_flag`, `events` and the run state are fields of State themselves. -/

namespace Sys2Proof.Machine

/-- The framebuffer view: the pixel at row `r` and column `c` of the 64 x 32 grid (R31, R34). -/
def State.viewPixel (s : State) (r : Fin 32) (c : Fin 64) : Bool :=
  s.fb.pixel (r.val * 64 + c.val)

/-- The output `sound_on`: ST is nonzero (R279). -/
def State.soundOn (s : State) : Bool := s.st != 0

end Sys2Proof.Machine
end

