-- ==== Sys2Proof/Machine/Transactions.lean ====
section
/-! DEFINITION. The five transactions the host drives the CORE with (spec/40_engine_cycle.md rule
R120): RESET, LOAD_PROGRAM, STEP, KEY_DOWN and TIMER_TICK. The host chooses their order (R121);
a run of the machine is a list of them. -/

namespace Sys2Proof.Machine

/-- The parameters INIT and FONT of one RESET (R6, R36): a value for every element the source
leaves unspecified, and the 80 font bytes. -/
structure Init where
  v : Vector Byte 16
  i : Word
  dt : Byte
  st : Byte
  stack : Vector Word 16
  fb : Frame
  keys : Vector Bool 16
  /-- FONT: mem[0x000..0x04F] (R65). -/
  font : Vector Byte 80
  /-- mem[0x050..0xFFF], 4016 bytes. -/
  ram : Vector Byte 4016
  deriving DecidableEq, Repr

/-- The byte RESET leaves at address `a` (R36, R300). -/
def Init.memByte (p : Init) (a : Nat) : Byte :=
  if h : a < 80 then p.font[a] else if h : a - 80 < 4016 then p.ram[a - 80] else 0

/-- INIT at the values of the premise CLEAN (R37), the stack entries 0, and the default FONT
(R65). -/
def Init.clean : Init where
  v := Vector.replicate 16 0
  i := 0
  dt := 0
  st := 0
  stack := Vector.replicate 16 0
  fb := Vector.replicate 32 0
  keys := Vector.replicate 16 false
  font := Vector.ofFn fun k => fontByte k.val
  ram := Vector.replicate 4016 0

/-- RESET with INIT and FONT `p`, from any state (R300). What is no state of the CORE is kept:
DRAW_CLIP, and the draw counter, so that draws after a RESET are new ones (log entry 16). -/
def resetWith (p : Init) (s : State) : State where
  v := p.v
  pc := 0x200
  i := p.i
  dt := p.dt
  st := p.st
  stack := p.stack
  depth := 0
  mem := Memory.ofBytes p.memByte
  fb := p.fb
  keys := p.keys
  run := .running
  drawFlag := false
  events := []
  drawClip := s.drawClip
  draws := s.draws

/-- The CORE is HALTED (R33). -/
def State.isHalted (s : State) : Bool :=
  match s.run with
  | .halted _ _ => true
  | _ => false

/-- LOAD_PROGRAM (R301): the image verbatim from 0x200, or the refusal of one longer than 3584
bytes. In HALTED nothing changes (95_test_vectors.md L2.1 row 9; log entry 15). -/
def loadProgram (image : List Byte) (s : State) : Host.Outcome State Fault Refusal :=
  if imageFits image then
    if s.isHalted then .next s
    else
      match storeBytes s.mem Config.progBase image with
      | .ok m => .next { s with mem := m }
      | .error _ => .refused (.imageTooLong image.length)
  else .refused (.imageTooLong image.length)

/-- KEY_DOWN(k) (R277). -/
def keyDown (k : Nibble) (s : State) : State :=
  match s.run with
  | .running => { s with keys := s.keys.set k true }
  | .awaitKey r => { (s.setReg r (BitVec.ofNat 8 k.val)).clearKeys with run := .running }
  | .halted _ _ => s

/-- A timer after one tick: one less, and never below 0 (R278, R281). -/
def tickTimer (t : Byte) : Byte := if t = 0 then 0 else t - 1

/-- TIMER_TICK (R278). -/
def timerTick (s : State) : State :=
  if s.isHalted then s else { s with dt := tickTimer s.dt, st := tickTimer s.st }

/-- The transactions (R120). -/
inductive Transaction where
  | reset (init : Init)
  | loadProgram (image : List Byte)
  | step
  | keyDown (k : Nibble)
  | timerTick
  deriving DecidableEq, Repr

/-- One transaction, atomic (R120). -/
def transact (t : Transaction) (s : State) : Host.Outcome State Fault Refusal :=
  match t with
  | .reset p => .next (resetWith p s)
  | .loadProgram image => loadProgram image s
  | .step => step s
  | .keyDown k => .next (keyDown k s)
  | .timerTick => .next (timerTick s)

/-- A sequence of transactions, stopping at the first that has no transition (R121). -/
def transactAll (ts : List Transaction) (s : State) : Host.Outcome State Fault Refusal :=
  match ts with
  | [] => .next s
  | t :: ts =>
    match transact t s with
    | .next s' => transactAll ts s'
    | .fault why => .fault why
    | .refused why => .refused why

end Sys2Proof.Machine
end

