-- ==== Sys2Proof/Safety.lean ====
section
/-! DEFINITION. What counts as a safe run, the premise CLEAN, and the invariant of the machine,
in the terms statements use. -/

namespace Sys2Proof.Machine

/-- The answer of a step as an option: the next state, or none for a fault or a refusal. -/
def nextState (o : Host.Outcome State Fault Refusal) : Option State :=
  match o with
  | .next s => some s
  | .fault _ => none
  | .refused _ => none

/-- A state a successful run may end in: HALTED is never one (R273). -/
def Safe (s : State) : Prop := s.isHalted = false

/-- `n` STEPs from `s` all execute and none of them halts (R131, R273). -/
def safeFor : Nat → State → Bool
  | 0, s => !s.isHalted
  | n + 1, s =>
    match step s with
    | .next t => safeFor n t
    | _ => false

/-- A state some run of the CORE reaches: RESET first, then any transactions (R121, R302). -/
def Reachable (s : State) : Prop :=
  ∃ s₀ init ts, transactAll (.reset init :: ts) s₀ = .next s

/-- The launch premise CLEAN on the parameter of a RESET (R37). -/
structure Init.Clean (p : Init) : Prop where
  v : ∀ x : Nibble, p.v[x] = 0
  i : p.i = 0
  dt : p.dt = 0
  st : p.st = 0
  fb : ∀ q, p.fb.pixel q = false
  keys : ∀ k : Nibble, p.keys[k] = false
  ram : ∀ a, 0x50 ≤ a → p.memByte a = 0

/-- What a halt record holds (R33, R271): a word that is illegal, an address outside memory that
a fetch or a block access reports, or a byte that names no key. -/
def haltRecordOk (why : HaltReason) : Prop :=
  match why.cause with
  | .unknownInstruction => why.info < 65536 ∧ legalWord (BitVec.ofNat 16 why.info) = false
  | .memoryOutOfRange => Config.memSize ≤ why.info ∧ why.info ≤ 0xFFFF
  | .keyIndexOutOfRange => 16 ≤ why.info ∧ why.info ≤ 255

/-- The run state's record is one a halt can make. -/
def runStateOk : RunState → Prop
  | .running => True
  | .awaitKey _ => True
  | .halted why fetchAddr => haltRecordOk why ∧ fetchAddr.toNat ≤ 0x10FE

/-- The invariant of the machine. -/
structure CoreInv (s : State) : Prop where
  /-- Memory is in canonical form, inside the address space (R60). -/
  mem : s.mem.wf = true
  /-- PC is a value some instruction can write (R25). -/
  pc : s.pc.toNat ≤ 0x10FE
  /-- Every stored return address is a value AdvancePC gives (R124, R142, R146). -/
  stack : ∀ k : Fin 16, k.val < s.depth.val → 0x200 ≤ s.stack[k].toNat ∧ s.stack[k].toNat ≤ 0x1000
  /-- The halt record is one a halt can make (R271, R272). -/
  run : runStateOk s.run
  /-- `events` is a set of at most one condition: a step pushes or pops at most once (R130,
  R275). -/
  events : s.events.length ≤ 1
  /-- Only a step that neither halts nor waits can have drawn (R129, R253, R272). -/
  draw : s.drawFlag = true → s.run = .running

/-- A part of the state an instruction may write, for saying what it leaves alone. -/
inductive Part where
  | reg (x : Nibble)
  | pc
  | i
  | dt
  | st
  | stack
  | mem
  | fb
  | run
  | events
  | draws
  deriving DecidableEq, Repr

/-- `t` is what a STEP that does not halt leaves of `s`, apart from the parts in `changed`: every
register, timer, stack entry, memory byte and pixel not named is unchanged, PC is the advanced PC,
`events` is empty, every key is released and draw_flag is `isDraw` (R123, R128 to R130). -/
structure StepKeeps (isDraw : Bool) (changed : List Part) (s t : State) : Prop where
  reg : ∀ r, Part.reg r ∉ changed → t.reg r = s.reg r
  pc : Part.pc ∉ changed → t.pc = advancedPc s.pc
  i : Part.i ∉ changed → t.i = s.i
  dt : Part.dt ∉ changed → t.dt = s.dt
  st : Part.st ∉ changed → t.st = s.st
  stack : Part.stack ∉ changed → t.sp = s.sp ∧ t.stack = s.stack
  mem : Part.mem ∉ changed → ∀ a, t.mem.read a = s.mem.read a
  fb : Part.fb ∉ changed → ∀ p, t.fb.pixel p = s.fb.pixel p
  run : Part.run ∉ changed → t.run = s.run
  events : Part.events ∉ changed → t.events = []
  draws : Part.draws ∉ changed → t.draws = s.draws
  drawClip : t.drawClip = s.drawClip
  keys : ∀ k, t.key k = false
  drawFlag : t.drawFlag = isDraw

/-- The state R272 gives a halt after the fetch: everything as the fetch left it, the run state
HALTED with the fetch address, draw_flag 0, the keys kept. -/
def haltedAfterFetch (why : HaltReason) (s : State) : State :=
  { s with pc := advancedPc s.pc, events := [], run := .halted why s.pc, drawFlag := false }

/-- The first address at or after `a` that memory does not have (R274). -/
def firstOutside (a : Nat) : Nat := max a Config.memSize

/-- Sprite byte number `row` of the DRW about to execute in `s` has a 1 bit that falls, in bounds,
on pixel `p` (R230, R231, R233, R234). -/
def spriteCovers (s : State) (x y n : Nibble) (p : Nat) : Prop :=
  ∃ row col, row < n.val ∧ col < 8
    ∧ (s.mem.read (s.i.toNat + row)).getLsbD (7 - col) = true
    ∧ inFrame s.drawClip ((s.reg y).toNat % 32 + row) ((s.reg x).toNat % 64 + col) = true
    ∧ p = ((s.reg y).toNat % 32 + row) * 64 + ((s.reg x).toNat % 64 + col)

/-- The addresses `n` Pops in a row return, most recent first (R141). -/
def popList : Nat → State → List Word
  | 0, _ => []
  | n + 1, s => s.popValue :: popList n s.popped

/-- The state after pushing the addresses in order (R140). -/
def pushList (as : List Word) (s : State) : State := as.foldl State.push s

/-- The registers an instruction may write: its named destination, V0 to Vx of a block load, and
VF where it is the flag output (R21, R22). -/
def mayWriteReg : Instr → Nibble → Bool
  | .cls, _ => false
  | .ret, _ => false
  | .jp _, _ => false
  | .call _, _ => false
  | .seImm _ _, _ => false
  | .sneImm _ _, _ => false
  | .seReg _ _, _ => false
  | .ldImm x _, r => r == x
  | .addImm x _, r => r == x
  | .ldReg x _, r => r == x
  | .orReg x _, r => r == x
  | .andReg x _, r => r == x
  | .xorReg x _, r => r == x
  | .addReg x _, r => r == x || r == vf
  | .subReg x _, r => r == x || r == vf
  | .shr x, r => r == x || r == vf
  | .subnReg x _, r => r == x || r == vf
  | .shl x, r => r == x || r == vf
  | .sneReg _ _, _ => false
  | .ldI _, _ => false
  | .jpV0 _, _ => false
  | .rnd x _, r => r == x
  | .drw _ _ _, r => r == vf
  | .skp _, _ => false
  | .sknp _, _ => false
  | .ldVxDt x, r => r == x
  | .ldVxK _, _ => false
  | .ldDtVx _, _ => false
  | .ldStVx _, _ => false
  | .addI _, _ => false
  | .ldF _, _ => false
  | .ldB _, _ => false
  | .storeRegs _, _ => false
  | .loadRegs x, r => decide (r ≤ x)

end Sys2Proof.Machine
end

