-- ==== Sys2Proof/Certificates/Slice0/Obligations.lean ====
section
/-! DEFINITION. The statements about the CORE, from the numbered rules of spec/. A statement about
an instruction says which words select it, that `exec` answers a next state and what that state
holds, and, through `StepKeeps`, everything it leaves alone. `exec i s` starts from the state
before the fetch, so PC in the answer is the advanced PC unless the instruction transfers
control. -/

open Sys2Proof Sys2Proof.Machine

/-! ## Encoding and decoding -/

/-- Decoding the word, or the bytes, of any instruction gives it back, whatever bytes follow
(R66, R90, R94). -/
def Obligations.DecodingAnEncodedInstructionGivesItBack : Prop :=
  ∀ (i : Instr) (rest : List Byte),
    decodeWord (encode i) = .ok i ∧ decodeBytes (encodeBytes i ++ rest) = .ok (i, rest)

/-- The decoder accepts exactly the words of the opcode map and rejects every other word by name;
no word is of two rows (R94, R95). -/
def Obligations.DecoderAcceptsExactlyTheOpcodeMap : Prop :=
  ∀ w : Word,
    (legalWord w = true → ∃ i, decodeWord w = .ok i)
    ∧ (legalWord w = false → decodeWord w = .error (.unknownInstruction w))
    ∧ ∀ r ∈ opcodeTable, ∀ r' ∈ opcodeTable, r.hits w = true → r'.hits w = true → r = r'

/-- R96: every value of y selects the same SHR or SHL, and two different words select the same
instruction only there. -/
def Obligations.OnlyTheShiftsHaveDontCareBits : Prop :=
  (∀ x y : Nibble, decodeWord (formatRR 0x8 x y 0x6) = .ok (.shr x)
    ∧ decodeWord (formatRR 0x8 x y 0xE) = .ok (.shl x))
  ∧ ∀ (w w' : Word) (i : Instr), decodeWord w = .ok i → decodeWord w' = .ok i →
      w = w' ∨ ((∃ x, i = .shr x ∨ i = .shl x)
        ∧ fieldOp w = fieldOp w' ∧ fieldX w = fieldX w' ∧ fieldN w = fieldN w')

/-- R91: the fields of a word are its bit slices. -/
def Obligations.FieldsAreTheBitSlicesOfTheWord : Prop :=
  ∀ w : Word,
    (fieldOp w).toNat = w.toNat / 4096 ∧ (fieldX w).val = w.toNat / 256 % 16
    ∧ (fieldY w).val = w.toNat / 16 % 16 ∧ (fieldN w).val = w.toNat % 16
    ∧ (fieldKk w).toNat = w.toNat % 256 ∧ (fieldNnn w).toNat = w.toNat % 4096

/-- One word of each family, written out from R94, decodes to its instruction. -/
def Obligations.WordsWrittenFromTheSpecDecode : Prop :=
  decodeWord 0x00E0 = .ok .cls ∧ decodeWord 0x00EE = .ok .ret
  ∧ decodeWord 0x1234 = .ok (.jp 0x234) ∧ decodeWord 0x3342 = .ok (.seImm 3 0x42)
  ∧ decodeWord 0x8125 = .ok (.subReg 1 2) ∧ decodeWord 0x81F6 = .ok (.shr 1)
  ∧ decodeWord 0xB300 = .ok (.jpV0 0x300) ∧ decodeWord 0xD12F = .ok (.drw 1 2 15)
  ∧ decodeWord 0xE5A1 = .ok (.sknp 5) ∧ decodeWord 0xF30A = .ok (.ldVxK 3)
  ∧ decodeWord 0xFF55 = .ok (.storeRegs 15) ∧ decodeWord 0x5121 = .error (.unknownInstruction 0x5121)

/-! ## The engine -/

/-- A step runs the decoded instruction: when the big-endian word at PC decodes to `i`, the STEP
is `exec i`, which does the fetch's advance of PC itself (R66, R122, R123). -/
def Obligations.StepRunsTheDecodedInstruction : Prop :=
  ∀ (s : State) (i : Instr), s.run = .running → s.pc.toNat + 1 < 4096 →
    decodeWord (BitVec.ofNat 16
      ((s.mem.read s.pc.toNat).toNat * 256 + (s.mem.read (s.pc.toNat + 1)).toNat)) = .ok i →
    step s = exec i s

/-- A fetch out of memory halts with PC kept: at 4096 or more on the first byte, at 0xFFF on the
second (R123). -/
def Obligations.FetchOutsideMemoryHaltsWithPcKept : Prop :=
  ∀ s : State, s.run = .running →
    (4096 ≤ s.pc.toNat → step s = .next { s with
      events := [], drawFlag := false, run := .halted ⟨.memoryOutOfRange, s.pc.toNat⟩ s.pc })
    ∧ (s.pc = 0xFFF → step s = .next { s with
      events := [], drawFlag := false, run := .halted ⟨.memoryOutOfRange, 0x1000⟩ s.pc })

/-- An illegal word (R95, R126) halts with the word as info, the fetch's advance of PC kept and
everything else as it was. -/
def Obligations.IllegalWordHaltsTheStep : Prop :=
  ∀ (s : State) (w : Word), s.run = .running → s.pc.toNat + 1 < 4096 →
    w.toNat = (s.mem.read s.pc.toNat).toNat * 256 + (s.mem.read (s.pc.toNat + 1)).toNat →
    legalWord w = false →
    step s = .next (haltedAfterFetch ⟨.unknownInstruction, w.toNat⟩ s)

/-- R131: STEP has no transition in AWAIT_KEY and in HALTED. -/
def Obligations.StepHasNoTransitionWhileWaitingOrHalted : Prop :=
  ∀ s : State,
    (∀ r, s.run = .awaitKey r → step s = .fault (.stepWhileAwaitingKey r))
    ∧ (∀ why a, s.run = .halted why a → step s = .fault (.stepWhileHalted why a))

/-- R124, with the corner values the spec derives from it in R125. -/
def Obligations.AdvancePcAddsTwoInsideTheProgramRegion : Prop :=
  (∀ s : State,
    (0x200 ≤ s.pc.toNat → s.pc.toNat < 0xFFF → s.advancePc.pc.toNat = s.pc.toNat + 2)
    ∧ (s.pc.toNat < 0x200 ∨ 0xFFF ≤ s.pc.toNat → s.advancePc.pc = 0x200))
  ∧ advancedPc 0x1FE = 0x200 ∧ advancedPc 0x200 = 0x202 ∧ advancedPc 0xFFD = 0xFFF
  ∧ advancedPc 0xFFE = 0x1000 ∧ advancedPc 0xFFF = 0x200 ∧ advancedPc 0x000 = 0x200
  ∧ advancedPc 0x1000 = 0x200

/-- R272: a halt is precise. The state is exactly as the fetch left it, or as before the step if
the fetch halted, plus the run state and draw_flag 0; every write of the execute phase is
discarded and the keys are kept. -/
def Obligations.HaltLeavesTheStateAsTheFetchLeftIt : Prop :=
  ∀ (s t : State) (why : HaltReason) (a : Word),
    step s = .next t → t.run = .halted why a →
    (fetchWord s = .error why
      ∧ t = { s with events := [], drawFlag := false, run := .halted why s.pc })
    ∨ ((∃ w, fetchWord s = .ok w) ∧ t = haltedAfterFetch why s)

/-- R128 and R129: a step that does not halt releases every key and sets draw_flag exactly when it
executed a DRW; a step that halts keeps the keys. -/
def Obligations.CompletedStepReleasesKeysAndFlagsDraws : Prop :=
  ∀ (s t : State) (w : Word) (i : Instr),
    fetchWord s = .ok w → decodeWord w = .ok i → step s = .next t →
    (t.isHalted = false →
      (∀ k, t.key k = false) ∧ (t.drawFlag = true ↔ ∃ x y n, i = .drw x y n))
    ∧ (t.isHalted = true → t.keys = s.keys)

/-- `events` holds what the last step raised: STACK_OVERFLOW for a CALL with 16 entries,
STACK_UNDERFLOW for a RET with none, and nothing for every other step (R130, R275). -/
def Obligations.EventsHoldWhatTheLastStepRaised : Prop :=
  ∀ s t : State, step s = .next t →
    (t.events = [.stackOverflow] ∧ s.sp = 15
      ∧ ∃ w nnn, fetchWord s = .ok w ∧ decodeWord w = .ok (.call nnn))
    ∨ (t.events = [.stackUnderflow] ∧ s.sp = -1
      ∧ ∃ w, fetchWord s = .ok w ∧ decodeWord w = .ok .ret)
    ∨ (t.events = []
      ∧ ¬ (s.sp = 15 ∧ ∃ w nnn, fetchWord s = .ok w ∧ decodeWord w = .ok (.call nnn))
      ∧ ¬ (s.sp = -1 ∧ ∃ w, fetchWord s = .ok w ∧ decodeWord w = .ok .ret))

/-- A halting step met one of the conditions of R271, with the cause and the info R271 gives it: an
illegal word; an access out of memory, by the fetch or by an instruction whose bytes at I reach
4096 or more (R68), reporting the first such address (R274); or a key skip on a register that names
no key. No other condition halts. -/
def Obligations.OnlyTheListedConditionsHalt : Prop :=
  ∀ (s t : State) (why : HaltReason) (a : Word),
    step s = .next t → t.run = .halted why a →
    (why.cause = .unknownInstruction
      ∧ ∃ w, fetchWord s = .ok w ∧ legalWord w = false ∧ why.info = w.toNat)
    ∨ (why.cause = .memoryOutOfRange ∧ 4096 ≤ why.info
      ∧ ((fetchWord s = .error why
          ∧ ((4096 ≤ s.pc.toNat ∧ why.info = s.pc.toNat) ∨ (s.pc = 0xFFF ∧ why.info = 0x1000)))
        ∨ ∃ w i, fetchWord s = .ok w ∧ decodeWord w = .ok i ∧ why.info = firstOutside s.i.toNat
          ∧ ((∃ x y n, i = .drw x y n ∧ n.val ≠ 0 ∧ 4096 < s.i.toNat + n.val)
            ∨ (∃ x, i = .ldB x ∧ 4096 < s.i.toNat + 3)
            ∨ ∃ x, (i = .storeRegs x ∨ i = .loadRegs x) ∧ 4096 < s.i.toNat + x.val + 1)))
    ∨ (why.cause = .keyIndexOutOfRange
      ∧ ∃ w x, fetchWord s = .ok w ∧ (decodeWord w = .ok (.skp x) ∨ decodeWord w = .ok (.sknp x))
          ∧ 16 ≤ (s.reg x).toNat ∧ why.info = (s.reg x).toNat)

/-! ## Rules about the whole machine -/

/-- Each unit is written only by its own instructions: I by Annn, Fx1E and Fx29 (R26), DT by Fx15
and ST by Fx18, so that no step decrements a timer (R27, R28), the stack by CALL and RET (R29,
R30), the framebuffer by CLS and DRW (R31), memory by Fx33 and Fx55 (R68). -/
def Obligations.EachUnitIsWrittenOnlyByItsInstructions : Prop :=
  ∀ (i : Instr) (s t : State), exec i s = .next t →
    (t.i = s.i ∨ (∃ nnn, i = .ldI nnn) ∨ ∃ x, i = .addI x ∨ i = .ldF x)
    ∧ (t.dt = s.dt ∨ ∃ x, i = .ldDtVx x)
    ∧ (t.st = s.st ∨ ∃ x, i = .ldStVx x)
    ∧ ((t.sp = s.sp ∧ t.stack = s.stack) ∨ i = .ret ∨ ∃ nnn, i = .call nnn)
    ∧ (t.fb = s.fb ∨ i = .cls ∨ ∃ x y n, i = .drw x y n)
    ∧ (t.mem = s.mem ∨ ∃ x, i = .ldB x ∨ i = .storeRegs x)

/-- A general register changes only under an instruction that names it as destination, loads it in
a block, or, for VF, has it as its flag output (R21, R22). -/
def Obligations.RegistersChangeOnlyAsDestinationOrFlag : Prop :=
  ∀ (i : Instr) (s t : State) (r : Nibble),
    exec i s = .next t → mayWriteReg i r = false → t.reg r = s.reg r

/-- R33: the only transitions of the run state, over every transaction. -/
def Obligations.RunStateChangesOnlyByTheListedTransitions : Prop :=
  ∀ (tr : Transaction) (s t : State), transact tr s = .next t → t.run ≠ s.run →
    (s.run = .running ∧ tr = .step
      ∧ ∃ w x, fetchWord s = .ok w ∧ decodeWord w = .ok (.ldVxK x) ∧ t.run = .awaitKey x)
    ∨ (∃ r k, s.run = .awaitKey r ∧ tr = .keyDown k ∧ t.run = .running)
    ∨ (s.run = .running ∧ tr = .step ∧ ∃ why, t.run = .halted why s.pc)
    ∨ (∃ p, tr = .reset p ∧ t.run = .running)

/-- R273: HALTED is permanent until RESET. -/
def Obligations.HaltedIsLeftOnlyByReset : Prop :=
  ∀ (s : State) (why : HaltReason) (a : Word), s.run = .halted why a →
    transact .step s = .fault (.stepWhileHalted why a)
    ∧ (∀ k, transact (.keyDown k) s = .next s)
    ∧ transact .timerTick s = .next s
    ∧ (∀ p, ∃ t, transact (.reset p) s = .next t ∧ t.run = .running)
    ∧ ∀ tr t, transact tr s = .next t → t.run = s.run ∨ ∃ p, tr = .reset p

/-- The invariant holds right after reset; the values of the elements R36 leaves to INIT are the
model's choice (log entries 1 and 2). -/
def Obligations.InvariantHoldsAtReset : Prop := CoreInv State.reset

/-- Every step keeps the invariant: memory canonical, PC at most 0x10FE (R25), stored return
addresses in 0x200 to 0x1000 (R124, R142), a legal halt record (R271), at most one event. -/
def Obligations.EveryStepKeepsTheInvariant : Prop :=
  ∀ s t : State, CoreInv s → step s = .next t → CoreInv t

/-- Every transaction keeps the invariant: STEP, LOAD_PROGRAM, KEY_DOWN and TIMER_TICK from any state
that meets it, and RESET with any INIT and FONT from any state at all (R120). -/
def Obligations.EveryTransactionKeepsTheInvariant : Prop :=
  (∀ (tr : Transaction) (s t : State), CoreInv s → transact tr s = .next t → CoreInv t)
  ∧ ∀ (p : Init) (s : State), CoreInv (resetWith p s)

/-- Every state the CORE reaches by RESET and then any transactions, for every INIT and FONT, meets
the invariant. -/
def Obligations.EveryReachableStateMeetsTheInvariant : Prop :=
  ∀ s : State, Reachable s → CoreInv s

/-! ## Memory -/

/-- R61 and R62: one byte is read or written at every address below 4096, font and program alike;
any other address halts with that address. -/
def Obligations.OneByteAccessesReadAndWriteBelow4096 : Prop :=
  ∀ (m : Memory) (a : Nat) (b : Byte), m.wf = true →
    (a < 4096 → memRead m a = .ok (m.read a)
      ∧ ∃ m', memWrite m a b = .ok m' ∧ m'.wf = true
        ∧ m'.read a = b ∧ ∀ c, c ≠ a → m'.read c = m.read c)
    ∧ (4096 ≤ a → memRead m a = .error ⟨.memoryOutOfRange, a⟩
      ∧ memWrite m a b = .error ⟨.memoryOutOfRange, a⟩)

/-- The model's representation of R60 is canonical: two memories that read alike at every address
are equal. -/
def Obligations.MemoriesThatReadAlikeAreEqual : Prop :=
  ∀ m m' : Memory, m.wf = true → m'.wf = true → (∀ a, a < 4096 → m.read a = m'.read a) → m = m'

/-! ## Control transfer and the stack -/

/-- R140 and R141: Push stores and raises SP, or drops with an event when full; Pop returns the
most recent entry and lowers SP, or returns 0x200 with an event when empty. -/
def Obligations.PushAndPopFollowTheStackRules : Prop :=
  ∀ (s : State) (a : Word),
    (s.sp < 15 → (s.push a).sp = s.sp + 1 ∧ (s.push a).popValue = a
      ∧ (∀ k : Fin 16, (k.val : Int) ≠ s.sp + 1 → (s.push a).stack[k] = s.stack[k])
      ∧ (s.push a).events = s.events)
    ∧ (s.sp = 15 → s.push a = s.emit .stackOverflow ∧ .stackOverflow ∈ (s.push a).events)
    ∧ (s.sp > -1 → s.popped.sp = s.sp - 1 ∧ s.popped.stack = s.stack
      ∧ s.popped.events = s.events
      ∧ ∀ k : Fin 16, (k.val : Int) = s.sp → s.popValue = s.stack[k])
    ∧ (s.sp = -1 → s.popValue = 0x200 ∧ s.popped = s.emit .stackUnderflow
      ∧ .stackUnderflow ∈ s.popped.events)

/-- Pushing addresses that fit and popping as many returns them in reverse order and leaves SP as
it was (R142, which the spec derives from R140 and R141). -/
def Obligations.PushedAddressesPopInReverse : Prop :=
  ∀ (as : List Word) (s : State), s.depth.val + as.length ≤ 16 →
    popList as.length (pushList as s) = as.reverse
    ∧ (State.popped^[as.length] (pushList as s)).sp = s.sp

/-- R146: CALL pushes the advanced PC and jumps; with 16 entries stored the push is dropped with
STACK_OVERFLOW and the jump still happens. -/
def Obligations.CallPushesTheAdvancedPcAndJumps : Prop :=
  (∀ w, fieldOp w = 0x2#4 → decodeWord w = .ok (.call (fieldNnn w)))
  ∧ ∀ (nnn : Addr12) (s : State),
    (s.sp < 15 → ∃ t, exec (.call nnn) s = .next t
      ∧ t.pc.toNat = nnn.toNat ∧ t.sp = s.sp + 1
      ∧ (∀ k : Fin 16, t.stack[k] = if (k.val : Int) = s.sp + 1 then advancedPc s.pc else s.stack[k])
      ∧ StepKeeps false [.pc, .stack] s t)
    ∧ (s.sp = 15 → ∃ t, exec (.call nnn) s = .next t
      ∧ t.pc.toNat = nnn.toNat ∧ t.events = [.stackOverflow]
      ∧ StepKeeps false [.pc, .events] s t)

/-- R144: RET pops PC, or sets it to 0x200 with STACK_UNDERFLOW when the stack is empty. -/
def Obligations.RetPopsPc : Prop :=
  decodeWord 0x00EE = .ok .ret
  ∧ ∀ s : State,
    (s.sp > -1 → ∃ t, exec .ret s = .next t
      ∧ (∀ k : Fin 16, (k.val : Int) = s.sp → t.pc = s.stack[k])
      ∧ t.sp = s.sp - 1 ∧ t.stack = s.stack ∧ StepKeeps false [.pc, .stack] s t)
    ∧ (s.sp = -1 → ∃ t, exec .ret s = .next t
      ∧ t.pc = 0x200 ∧ t.events = [.stackUnderflow] ∧ StepKeeps false [.pc, .events] s t)

/-- R145 and R151: the jumps set PC to nnn, or to nnn + V0 without masking. -/
def Obligations.JumpsSetPc : Prop :=
  (∀ w, fieldOp w = 0x1#4 → decodeWord w = .ok (.jp (fieldNnn w)))
  ∧ (∀ w, fieldOp w = 0xB#4 → decodeWord w = .ok (.jpV0 (fieldNnn w)))
  ∧ ∀ (nnn : Addr12) (s : State),
    (∃ t, exec (.jp nnn) s = .next t ∧ t.pc.toNat = nnn.toNat ∧ StepKeeps false [.pc] s t)
    ∧ ∃ t, exec (.jpV0 nnn) s = .next t ∧ t.pc.toNat = nnn.toNat + (s.reg 0).toNat
      ∧ StepKeeps false [.pc] s t

/-- R147 and R148: a skip on an immediate advances PC once more, by the same rule. -/
def Obligations.SkipsOnImmediateAdvancePcTwice : Prop :=
  (∀ w, fieldOp w = 0x3#4 → decodeWord w = .ok (.seImm (fieldX w) (fieldKk w)))
  ∧ (∀ w, fieldOp w = 0x4#4 → decodeWord w = .ok (.sneImm (fieldX w) (fieldKk w)))
  ∧ ∀ (x : Nibble) (kk : Byte) (s : State),
    (∃ t, exec (.seImm x kk) s = .next t
      ∧ t.pc = (if s.reg x = kk then advancedPc (advancedPc s.pc) else advancedPc s.pc)
      ∧ StepKeeps false [.pc] s t)
    ∧ ∃ t, exec (.sneImm x kk) s = .next t
      ∧ t.pc = (if s.reg x = kk then advancedPc s.pc else advancedPc (advancedPc s.pc))
      ∧ StepKeeps false [.pc] s t

/-- R149 and R150: a skip on two registers advances PC once more; other selectors n are illegal. -/
def Obligations.SkipsOnRegistersAdvancePcTwice : Prop :=
  (∀ w, fieldOp w = 0x5#4 → decodeWord w =
    if fieldN w = 0 then .ok (.seReg (fieldX w) (fieldY w)) else .error (.unknownInstruction w))
  ∧ (∀ w, fieldOp w = 0x9#4 → decodeWord w =
    if fieldN w = 0 then .ok (.sneReg (fieldX w) (fieldY w)) else .error (.unknownInstruction w))
  ∧ ∀ (x y : Nibble) (s : State),
    (∃ t, exec (.seReg x y) s = .next t
      ∧ t.pc = (if s.reg x = s.reg y then advancedPc (advancedPc s.pc) else advancedPc s.pc)
      ∧ StepKeeps false [.pc] s t)
    ∧ ∃ t, exec (.sneReg x y) s = .next t
      ∧ t.pc = (if s.reg x = s.reg y then advancedPc s.pc else advancedPc (advancedPc s.pc))
      ∧ StepKeeps false [.pc] s t

/-! ## Register loads and the ALU -/

/-- R171 and R172: load immediate, and add immediate modulo 256 with no flag. -/
def Obligations.ImmediateFormsWriteOnlyVx : Prop :=
  (∀ w, fieldOp w = 0x6#4 → decodeWord w = .ok (.ldImm (fieldX w) (fieldKk w)))
  ∧ (∀ w, fieldOp w = 0x7#4 → decodeWord w = .ok (.addImm (fieldX w) (fieldKk w)))
  ∧ ∀ (x : Nibble) (kk : Byte) (s : State),
    (∃ t, exec (.ldImm x kk) s = .next t ∧ t.reg x = kk ∧ StepKeeps false [.reg x] s t)
    ∧ ∃ t, exec (.addImm x kk) s = .next t
      ∧ (t.reg x).toNat = ((s.reg x).toNat + kk.toNat) % 256 ∧ StepKeeps false [.reg x] s t

/-- R173 to R176: copy, OR, AND and XOR write V[x] bit by bit from the old values and no flag. -/
def Obligations.CopyAndLogicWriteOnlyVx : Prop :=
  (∀ w, fieldOp w = 0x8#4 →
    (fieldN w = 0 → decodeWord w = .ok (.ldReg (fieldX w) (fieldY w)))
    ∧ (fieldN w = 1 → decodeWord w = .ok (.orReg (fieldX w) (fieldY w)))
    ∧ (fieldN w = 2 → decodeWord w = .ok (.andReg (fieldX w) (fieldY w)))
    ∧ (fieldN w = 3 → decodeWord w = .ok (.xorReg (fieldX w) (fieldY w))))
  ∧ ∀ (x y : Nibble) (s : State),
    (∃ t, exec (.ldReg x y) s = .next t ∧ t.reg x = s.reg y ∧ StepKeeps false [.reg x] s t)
    ∧ (∃ t, exec (.orReg x y) s = .next t
      ∧ (∀ b, (t.reg x).getLsbD b = ((s.reg x).getLsbD b || (s.reg y).getLsbD b))
      ∧ StepKeeps false [.reg x] s t)
    ∧ (∃ t, exec (.andReg x y) s = .next t
      ∧ (∀ b, (t.reg x).getLsbD b = ((s.reg x).getLsbD b && (s.reg y).getLsbD b))
      ∧ StepKeeps false [.reg x] s t)
    ∧ ∃ t, exec (.xorReg x y) s = .next t
      ∧ (∀ b, (t.reg x).getLsbD b = ((s.reg x).getLsbD b ^^ (s.reg y).getLsbD b))
      ∧ StepKeeps false [.reg x] s t

/-- R177: the sum modulo 256 and, unless x = F, the carry in VF. -/
def Obligations.AddRegistersWritesSumAndCarry : Prop :=
  (∀ w, fieldOp w = 0x8#4 → fieldN w = 4 → decodeWord w = .ok (.addReg (fieldX w) (fieldY w)))
  ∧ ∀ (x y : Nibble) (s : State), ∃ t, exec (.addReg x y) s = .next t
    ∧ (t.reg x).toNat = ((s.reg x).toNat + (s.reg y).toNat) % 256
    ∧ (x ≠ vf → t.reg vf = if (s.reg x).toNat + (s.reg y).toNat > 255 then 1 else 0)
    ∧ StepKeeps false [.reg x, .reg vf] s t

/-- R178 and R180: the difference modulo 256 and, unless x = F, the strict not-borrow in VF. -/
def Obligations.SubtractionsWriteDifferenceAndNotBorrow : Prop :=
  (∀ w, fieldOp w = 0x8#4 → fieldN w = 5 → decodeWord w = .ok (.subReg (fieldX w) (fieldY w)))
  ∧ (∀ w, fieldOp w = 0x8#4 → fieldN w = 7 → decodeWord w = .ok (.subnReg (fieldX w) (fieldY w)))
  ∧ ∀ (x y : Nibble) (s : State),
    (∃ t, exec (.subReg x y) s = .next t
      ∧ ((t.reg x).toNat : Int) = ((s.reg x).toNat - (s.reg y).toNat : Int) % 256
      ∧ (x ≠ vf → t.reg vf = if (s.reg x).toNat > (s.reg y).toNat then 1 else 0)
      ∧ StepKeeps false [.reg x, .reg vf] s t)
    ∧ ∃ t, exec (.subnReg x y) s = .next t
      ∧ ((t.reg x).toNat : Int) = ((s.reg y).toNat - (s.reg x).toNat : Int) % 256
      ∧ (x ≠ vf → t.reg vf = if (s.reg y).toNat > (s.reg x).toNat then 1 else 0)
      ∧ StepKeeps false [.reg x, .reg vf] s t

/-- R179 and R181: V[x] shifted by one in place, whatever y, and, unless x = F, the bit shifted out
in VF. -/
def Obligations.ShiftsWriteVxAndTheBitShiftedOut : Prop :=
  (∀ w, fieldOp w = 0x8#4 → fieldN w = 6 → decodeWord w = .ok (.shr (fieldX w)))
  ∧ (∀ w, fieldOp w = 0x8#4 → fieldN w = 14 → decodeWord w = .ok (.shl (fieldX w)))
  ∧ ∀ (x : Nibble) (s : State),
    (∃ t, exec (.shr x) s = .next t
      ∧ (t.reg x).toNat = (s.reg x).toNat / 2
      ∧ (x ≠ vf → (t.reg vf).toNat = (s.reg x).toNat % 2)
      ∧ StepKeeps false [.reg x, .reg vf] s t)
    ∧ ∃ t, exec (.shl x) s = .next t
      ∧ (t.reg x).toNat = 2 * (s.reg x).toNat % 256
      ∧ (x ≠ vf → (t.reg vf).toNat = (s.reg x).toNat / 128)
      ∧ StepKeeps false [.reg x, .reg vf] s t

/-- RND writes a fresh draw masked with kk and no flag (R182). The draw is the model's free value
(log entry 5): the statement holds whatever byte it is, and the counter advances so that the next
RND makes another draw. -/
def Obligations.RndWritesAFreshDrawMasked : Prop :=
  (∀ w, fieldOp w = 0xC#4 → decodeWord w = .ok (.rnd (fieldX w) (fieldKk w)))
  ∧ ∀ (x : Nibble) (kk : Byte) (s : State), ∃ t, exec (.rnd x kk) s = .next t
    ∧ (∀ b, (t.reg x).getLsbD b = ((Config.freeByte s.draws).getLsbD b && kk.getLsbD b))
    ∧ t.draws = s.draws + 1 ∧ StepKeeps false [.reg x, .draws] s t

/-! ## The index register and memory instructions -/

/-- R200 and R201: I loaded with nnn, or with I + V[x] modulo 65536; no flag. -/
def Obligations.IndexLoadsAndAdds : Prop :=
  (∀ w, fieldOp w = 0xA#4 → decodeWord w = .ok (.ldI (fieldNnn w)))
  ∧ (∀ w, fieldOp w = 0xF#4 → fieldKk w = 0x1E → decodeWord w = .ok (.addI (fieldX w)))
  ∧ ∀ s : State,
    (∀ nnn : Addr12, ∃ t, exec (.ldI nnn) s = .next t ∧ t.i.toNat = nnn.toNat
      ∧ StepKeeps false [.i] s t)
    ∧ ∀ x : Nibble, ∃ t, exec (.addI x) s = .next t
      ∧ t.i.toNat = (s.i.toNat + (s.reg x).toNat) % 65536 ∧ StepKeeps false [.i] s t

/-- R202: I points at glyph V[x] when it is below 16 and is left alone otherwise. -/
def Obligations.GlyphLoadPointsIndexAtTheFont : Prop :=
  (∀ w, fieldOp w = 0xF#4 → fieldKk w = 0x29 → decodeWord w = .ok (.ldF (fieldX w)))
  ∧ ∀ (x : Nibble) (s : State), ∃ t, exec (.ldF x) s = .next t
    ∧ ((s.reg x).toNat < 16 → t.i.toNat = (s.reg x).toNat * 5)
    ∧ (16 ≤ (s.reg x).toNat → t.i = s.i) ∧ StepKeeps false [.i] s t

/-- R203: the three decimal digits at I, I + 1, I + 2, every other byte unchanged, or the halt of
the first address out of range. -/
def Obligations.BcdStoresThreeDigits : Prop :=
  (∀ w, fieldOp w = 0xF#4 → fieldKk w = 0x33 → decodeWord w = .ok (.ldB (fieldX w)))
  ∧ ∀ (x : Nibble) (s : State), s.mem.wf = true →
    (s.i.toNat + 2 < 4096 → ∃ t, exec (.ldB x) s = .next t
      ∧ (t.mem.read s.i.toNat).toNat = (s.reg x).toNat / 100
      ∧ (t.mem.read (s.i.toNat + 1)).toNat = (s.reg x).toNat / 10 % 10
      ∧ (t.mem.read (s.i.toNat + 2)).toNat = (s.reg x).toNat % 10
      ∧ (∀ a, a < s.i.toNat ∨ s.i.toNat + 2 < a → t.mem.read a = s.mem.read a)
      ∧ StepKeeps false [.mem] s t)
    ∧ (4096 ≤ s.i.toNat + 2 → exec (.ldB x) s =
        .next (haltedAfterFetch ⟨.memoryOutOfRange, firstOutside s.i.toNat⟩ s))

/-- R204: V0 to Vx at I to I + x, every other byte and I unchanged, or the halt of the first
address out of range. -/
def Obligations.BlockStoreWritesV0ToVx : Prop :=
  (∀ w, fieldOp w = 0xF#4 → fieldKk w = 0x55 → decodeWord w = .ok (.storeRegs (fieldX w)))
  ∧ ∀ (x : Nibble) (s : State), s.mem.wf = true →
    (s.i.toNat + x.val < 4096 → ∃ t, exec (.storeRegs x) s = .next t
      ∧ (∀ k : Nibble, k ≤ x → t.mem.read (s.i.toNat + k.val) = s.reg k)
      ∧ (∀ a, a < s.i.toNat ∨ s.i.toNat + x.val < a → t.mem.read a = s.mem.read a)
      ∧ StepKeeps false [.mem] s t)
    ∧ (4096 ≤ s.i.toNat + x.val → exec (.storeRegs x) s =
        .next (haltedAfterFetch ⟨.memoryOutOfRange, firstOutside s.i.toNat⟩ s))

/-- R205: V0 to Vx from I to I + x, every other register and I unchanged, or the halt of the first
address out of range. -/
def Obligations.BlockLoadReadsV0ToVx : Prop :=
  (∀ w, fieldOp w = 0xF#4 → fieldKk w = 0x65 → decodeWord w = .ok (.loadRegs (fieldX w)))
  ∧ ∀ (x : Nibble) (s : State),
    (s.i.toNat + x.val < 4096 → ∃ t, exec (.loadRegs x) s = .next t
      ∧ (∀ k : Nibble, k ≤ x → t.reg k = s.mem.read (s.i.toNat + k.val))
      ∧ StepKeeps false ((List.range (x.val + 1)).map fun k => .reg (Fin.ofNat 16 k)) s t)
    ∧ (4096 ≤ s.i.toNat + x.val → exec (.loadRegs x) s =
        .next (haltedAfterFetch ⟨.memoryOutOfRange, firstOutside s.i.toNat⟩ s))

/-- Storing V0 to Vx and loading them back through the same I into any register file reproduces
them (R204, R205). -/
def Obligations.BlockStoreThenLoadRoundTrips : Prop :=
  ∀ (x : Nibble) (s : State), s.mem.wf = true → s.i.toNat + x.val < 4096 →
    ∃ t, exec (.storeRegs x) s = .next t ∧ ∀ u : State, u.mem = t.mem → u.i = s.i →
      ∃ u', exec (.loadRegs x) u = .next u' ∧ ∀ k : Nibble, k ≤ x → u'.reg k = s.reg k

/-- Fetch sees stored bytes at once: after V0 to Vx, x at least 1, are stored at I, a fetch from I
reads the word of V0 and V1 (R72, which the spec derives from R60, R70 and R122). -/
def Obligations.FetchSeesStoredBytes : Prop :=
  ∀ (x : Nibble) (s : State), s.mem.wf = true → 1 ≤ x.val → s.i.toNat + x.val < 4096 →
    ∃ t, exec (.storeRegs x) s = .next t
      ∧ fetchWord { t with pc := s.i }
        = .ok (BitVec.ofNat 16 ((s.reg 0).toNat * 256 + (s.reg 1).toNat))

/-! ## The framebuffer -/

/-- R232: CLS clears every pixel, writes no register and is no draw. -/
def Obligations.ClearScreenClearsEveryPixel : Prop :=
  decodeWord 0x00E0 = .ok .cls
  ∧ ∀ s : State, ∃ t, exec .cls s = .next t ∧ (∀ p, t.fb.pixel p = false)
    ∧ StepKeeps false [.fb] s t

/-- The two readings of InFB that R231 keeps open (log entry 4), and where they agree. -/
def Obligations.ClippingReadingsAgreeUnlessTheSpriteOverhangs : Prop :=
  ∀ r c : Nat,
    (inFrame .linear r c = true ↔ r * 64 + c < 2048)
    ∧ (inFrame .axis r c = true ↔ r < 32 ∧ c < 64)
    ∧ (c < 64 → inFrame .linear r c = inFrame .axis r c)
    ∧ (64 ≤ c → c ≤ 70 → r ≤ 30 →
      inFrame .linear r c = true ∧ r * 64 + c = (r + 1) * 64 + (c - 64)
      ∧ inFrame .axis r c = false)

/-- For both values of DRAW_CLIP: DRW toggles exactly the in-bounds pixels under a 1 bit, sets VF
to 1 if and only if one of them was 1 before, and halts with nothing drawn when a sprite row is out
of memory (R233). The order of the bits in a sprite byte is R234's, which the spec takes from
general knowledge (log entry 6). -/
def Obligations.DrawTogglesCoveredPixelsAndReportsCollision : Prop :=
  (∀ w, fieldOp w = 0xD#4 → decodeWord w = .ok (.drw (fieldX w) (fieldY w) (fieldN w)))
  ∧ ∀ (x y n : Nibble) (s : State),
    (n.val = 0 ∨ s.i.toNat + n.val ≤ 4096 → ∃ t, exec (.drw x y n) s = .next t
      ∧ (∀ p, (spriteCovers s x y n p → t.fb.pixel p = !s.fb.pixel p)
        ∧ (¬ spriteCovers s x y n p → t.fb.pixel p = s.fb.pixel p))
      ∧ ((∃ p, spriteCovers s x y n p ∧ s.fb.pixel p = true) → t.reg vf = 1)
      ∧ ((¬ ∃ p, spriteCovers s x y n p ∧ s.fb.pixel p = true) → t.reg vf = 0)
      ∧ StepKeeps true [.fb, .reg vf] s t)
    ∧ (n.val ≠ 0 → 4096 < s.i.toNat + n.val → exec (.drw x y n) s =
        .next (haltedAfterFetch ⟨.memoryOutOfRange, firstOutside s.i.toNat⟩ s))

/-- DRW is its own inverse (R235, which the spec derives from R230, R231 and R233): two identical
draws in succession restore the framebuffer, and the second collides exactly when some covered
pixel was 0 before the first. Which pixels are covered rests on the bit order of R234, which the
spec takes from general knowledge (log entry 6). -/
def Obligations.DrawingTwiceRestoresTheFramebuffer : Prop :=
  ∀ (x y n : Nibble) (s : State), x ≠ vf → y ≠ vf →
    n.val = 0 ∨ s.i.toNat + n.val ≤ 4096 →
    ∃ t u, exec (.drw x y n) s = .next t ∧ exec (.drw x y n) t = .next u
      ∧ (∀ p, u.fb.pixel p = s.fb.pixel p)
      ∧ (u.reg vf = 1 ↔ ∃ p, spriteCovers s x y n p ∧ s.fb.pixel p = false)

/-! ## Keys and timers -/

/-- R250 and R251: the key skips advance PC once more on the state of key V[x], and halt when V[x]
names no key. -/
def Obligations.KeySkipsTestTheKeyVxNames : Prop :=
  (∀ w, fieldOp w = 0xE#4 → fieldKk w = 0x9E → decodeWord w = .ok (.skp (fieldX w)))
  ∧ (∀ w, fieldOp w = 0xE#4 → fieldKk w = 0xA1 → decodeWord w = .ok (.sknp (fieldX w)))
  ∧ ∀ (x : Nibble) (s : State),
    (∀ k : Nibble, (s.reg x).toNat = k.val →
      (∃ t, exec (.skp x) s = .next t
        ∧ t.pc = (if s.key k = true then advancedPc (advancedPc s.pc) else advancedPc s.pc)
        ∧ StepKeeps false [.pc] s t)
      ∧ ∃ t, exec (.sknp x) s = .next t
        ∧ t.pc = (if s.key k = true then advancedPc s.pc else advancedPc (advancedPc s.pc))
        ∧ StepKeeps false [.pc] s t)
    ∧ (16 ≤ (s.reg x).toNat →
      exec (.skp x) s = .next (haltedAfterFetch ⟨.keyIndexOutOfRange, (s.reg x).toNat⟩ s)
      ∧ exec (.sknp x) s = .next (haltedAfterFetch ⟨.keyIndexOutOfRange, (s.reg x).toNat⟩ s))

/-- R252, R254 and R255: reading DT, writing DT, writing ST; the sound output follows ST (R279). -/
def Obligations.TimerInstructionsMoveOneByte : Prop :=
  (∀ w, fieldOp w = 0xF#4 →
    (fieldKk w = 0x07 → decodeWord w = .ok (.ldVxDt (fieldX w)))
    ∧ (fieldKk w = 0x15 → decodeWord w = .ok (.ldDtVx (fieldX w)))
    ∧ (fieldKk w = 0x18 → decodeWord w = .ok (.ldStVx (fieldX w))))
  ∧ ∀ (x : Nibble) (s : State),
    (∃ t, exec (.ldVxDt x) s = .next t ∧ t.reg x = s.dt ∧ StepKeeps false [.reg x] s t)
    ∧ (∃ t, exec (.ldDtVx x) s = .next t ∧ t.dt = s.reg x ∧ StepKeeps false [.dt] s t)
    ∧ ∃ t, exec (.ldStVx x) s = .next t ∧ t.st = s.reg x
      ∧ (t.soundOn = true ↔ s.reg x ≠ 0) ∧ StepKeeps false [.st] s t

/-- R253: LD Vx, K enters AWAIT_KEY(x) and changes nothing else in its execute phase. -/
def Obligations.WaitForKeyEntersAwaitKey : Prop :=
  (∀ w, fieldOp w = 0xF#4 → fieldKk w = 0x0A → decodeWord w = .ok (.ldVxK (fieldX w)))
  ∧ ∀ (x : Nibble) (s : State), ∃ t, exec (.ldVxK x) s = .next t
    ∧ t.run = .awaitKey x ∧ StepKeeps false [.run] s t

/-- After LD Vx, K and the delivery of key k, the program goes on at the next instruction with
V[x] = k and every key released, whatever number of ticks came between (R305, which the spec
derives from R253 and R277). -/
def Obligations.DeliveredKeyEndsTheWait : Prop :=
  ∀ (x k : Nibble) (s : State) (ticks : Nat),
    ∃ t u, exec (.ldVxK x) s = .next t
      ∧ transactAll (List.replicate ticks .timerTick ++ [.keyDown k]) t = .next u
      ∧ u.run = .running ∧ (u.reg x).toNat = k.val ∧ (∀ r, r ≠ x → u.reg r = s.reg r)
      ∧ u.pc = advancedPc s.pc ∧ (∀ j, u.key j = false)
      ∧ u.dt.toNat = s.dt.toNat - ticks ∧ u.mem = s.mem ∧ u.fb = s.fb

/-- R277: what KEY_DOWN does in each run state, and that it does nothing else. -/
def Obligations.KeyDownPressesOrDelivers : Prop :=
  ∀ (k : Nibble) (s : State), ∃ t, transact (.keyDown k) s = .next t
    ∧ (s.run = .running → (∀ j, t.key j = (decide (j = k) || s.key j))
      ∧ { t with keys := s.keys } = s)
    ∧ (∀ r, s.run = .awaitKey r → (t.reg r).toNat = k.val ∧ (∀ j, t.key j = false)
      ∧ t.run = .running ∧ (∀ q, q ≠ r → t.reg q = s.reg q)
      ∧ { t with v := s.v, keys := s.keys, run := s.run } = s)
    ∧ (∀ why a, s.run = .halted why a → t = s)

/-- R278: TIMER_TICK takes one from each nonzero timer, in RUNNING and AWAIT_KEY alike, and does
nothing in HALTED; it changes nothing else. -/
def Obligations.TimerTickDecrementsNonzeroTimers : Prop :=
  ∀ s : State, ∃ t, transact .timerTick s = .next t
    ∧ (s.isHalted = false → t.dt.toNat = s.dt.toNat - 1 ∧ t.st.toNat = s.st.toNat - 1
      ∧ { t with dt := s.dt, st := s.st } = s)
    ∧ (s.isHalted = true → t = s)

/-! ## Reset and program load -/

/-- R300, with the values of R36: RESET in any run state, for every INIT and FONT. -/
def Obligations.ResetSetsTheResetValues : Prop :=
  ∀ (p : Init) (s : State), ∃ t, transact (.reset p) s = .next t
    ∧ t.pc = 0x200 ∧ t.sp = -1 ∧ t.run = .running ∧ t.drawFlag = false ∧ t.events = []
    ∧ (∀ a (h : a < 80), t.mem.read a = p.font[a])
    ∧ (∀ a (h : a < 4016), t.mem.read (0x050 + a) = p.ram[a])
    ∧ t.v = p.v ∧ t.i = p.i ∧ t.dt = p.dt ∧ t.st = p.st ∧ t.stack = p.stack ∧ t.fb = p.fb
    ∧ t.keys = p.keys

/-- The model's reset state is RESET under the premise CLEAN with the default FONT (R36, R37); that
these are its values is the model's choice (log entries 1 and 2). -/
def Obligations.ResetStateIsResetUnderClean : Prop :=
  Init.clean.Clean ∧ ∀ s : State,
    resetWith Init.clean s = { State.reset with drawClip := s.drawClip, draws := s.draws }

/-- R301: LOAD_PROGRAM writes the image from 0x200 and changes nothing else; a longer image is
refused. In HALTED nothing changes, which is the model's reading (log entry 15). -/
def Obligations.LoadProgramWritesTheImage : Prop :=
  ∀ (image : List Byte) (s : State), s.mem.wf = true →
    (image.length ≤ 3584 → s.isHalted = false →
      ∃ t, transact (.loadProgram image) s = .next t
        ∧ (∀ k (h : k < image.length), t.mem.read (0x200 + k) = image[k])
        ∧ (∀ a, a < 0x200 ∨ 0x200 + image.length ≤ a → t.mem.read a = s.mem.read a)
        ∧ { t with mem := s.mem } = s)
    ∧ (image.length ≤ 3584 → s.isHalted = true → transact (.loadProgram image) s = .next s)
    ∧ (3584 < image.length →
      transact (.loadProgram image) s = .refused (.imageTooLong image.length))

/-- A jump to itself is an idle loop: each step rewrites PC with the same value, empties the
outputs and keys, and leaves every register, memory byte and pixel (R133, which the spec derives
from R122 and R131). -/
def Obligations.JumpToItselfIsAnIdleLoop : Prop :=
  ∀ (s : State) (nnn : Addr12), s.run = .running → s.pc.toNat = nnn.toNat → nnn.toNat + 1 < 4096 →
    (s.mem.read nnn.toNat).toNat = 0x10 + nnn.toNat / 256 →
    (s.mem.read (nnn.toNat + 1)).toNat = nnn.toNat % 256 →
    step s = .next { s with keys := Vector.replicate 16 false, drawFlag := false, events := [] }
end

