-- ==== Sys2Proof/Laws/Decode.lean ====
section
/-! SUPPORT. The fields of a word written by a format are what the format was given, and the two
bytes of a word make the word again: all a proof needs to take an encoding apart. -/

namespace Sys2Proof

/-! ### The bits of a word written by a format -/

theorem getLsbD_formatA (op : BitVec 4) (nnn : Addr12) (i : Nat) :
    (formatA op nnn).getLsbD i = if i < 12 then nnn.getLsbD i else op.getLsbD (i - 12) := by
  exact (BitVec.getLsbD_append (x := op) (y := nnn)).trans (by simp)

theorem getLsbD_formatRK (op : BitVec 4) (x : Nibble) (kk : Byte) (i : Nat) :
    (formatRK op x kk).getLsbD i = if i < 8 then kk.getLsbD i
      else if i < 12 then (nibbleBits x).getLsbD (i - 8) else op.getLsbD (i - 12) := by
  refine (BitVec.getLsbD_append (x := op) (y := nibbleBits x ++ kk)).trans ?_
  rw [BitVec.getLsbD_append]
  by_cases h : i < 8
  · simp [h, show i < 12 by omega]
  · simp [h]

theorem getLsbD_formatRR (op : BitVec 4) (x y : Nibble) (n : BitVec 4) (i : Nat) :
    (formatRR op x y n).getLsbD i = if i < 4 then n.getLsbD i
      else if i < 8 then (nibbleBits y).getLsbD (i - 4)
      else if i < 12 then (nibbleBits x).getLsbD (i - 8) else op.getLsbD (i - 12) := by
  refine (BitVec.getLsbD_append (x := op) (y := nibbleBits x ++ (nibbleBits y ++ n))).trans ?_
  rw [BitVec.getLsbD_append, BitVec.getLsbD_append]
  by_cases h : i < 4
  · simp [h, show i < 8 by omega, show i < 12 by omega]
  · by_cases h' : i < 8
    · simp [h, h', show i < 12 by omega]
    · simp [h, h']

/-! ### Its fields -/

@[simp] theorem nibbleBits_toFin (x : Nibble) : (nibbleBits x).toFin = x := rfl

theorem toFin_eq_of_bits {b : BitVec 4} {x : Nibble} (h : b = nibbleBits x) : b.toFin = x := by
  subst h; rfl

@[simp] theorem fieldOp_formatA (op : BitVec 4) (nnn : Addr12) :
    fieldOp (formatA op nnn) = op := by
  apply BitVec.eq_of_getLsbD_eq
  intro i hi
  unfold fieldOp
  rw [BitVec.getLsbD_extractLsb', getLsbD_formatA]
  simp [hi]

@[simp] theorem fieldNnn_formatA (op : BitVec 4) (nnn : Addr12) :
    fieldNnn (formatA op nnn) = nnn := by
  apply BitVec.eq_of_getLsbD_eq
  intro i hi
  unfold fieldNnn
  rw [BitVec.getLsbD_extractLsb', getLsbD_formatA]
  simp [hi]

@[simp] theorem fieldOp_formatRK (op : BitVec 4) (x : Nibble) (kk : Byte) :
    fieldOp (formatRK op x kk) = op := by
  apply BitVec.eq_of_getLsbD_eq
  intro i hi
  unfold fieldOp
  rw [BitVec.getLsbD_extractLsb', getLsbD_formatRK]
  simp [hi, show ¬ 12 + i < 8 by omega]

@[simp] theorem fieldX_formatRK (op : BitVec 4) (x : Nibble) (kk : Byte) :
    fieldX (formatRK op x kk) = x := by
  apply toFin_eq_of_bits
  apply BitVec.eq_of_getLsbD_eq
  intro i hi
  rw [BitVec.getLsbD_extractLsb', getLsbD_formatRK]
  simp [hi, show 8 + i < 12 by omega]

@[simp] theorem fieldKk_formatRK (op : BitVec 4) (x : Nibble) (kk : Byte) :
    fieldKk (formatRK op x kk) = kk := by
  apply BitVec.eq_of_getLsbD_eq
  intro i hi
  unfold fieldKk
  rw [BitVec.getLsbD_extractLsb', getLsbD_formatRK]
  simp [hi]

@[simp] theorem fieldOp_formatRR (op : BitVec 4) (x y : Nibble) (n : BitVec 4) :
    fieldOp (formatRR op x y n) = op := by
  apply BitVec.eq_of_getLsbD_eq
  intro i hi
  unfold fieldOp
  rw [BitVec.getLsbD_extractLsb', getLsbD_formatRR]
  simp [hi, show ¬ 12 + i < 8 by omega, show ¬ 12 + i < 4 by omega]

@[simp] theorem fieldX_formatRR (op : BitVec 4) (x y : Nibble) (n : BitVec 4) :
    fieldX (formatRR op x y n) = x := by
  apply toFin_eq_of_bits
  apply BitVec.eq_of_getLsbD_eq
  intro i hi
  rw [BitVec.getLsbD_extractLsb', getLsbD_formatRR]
  simp [hi, show 8 + i < 12 by omega, show ¬ 8 + i < 4 by omega]

@[simp] theorem fieldY_formatRR (op : BitVec 4) (x y : Nibble) (n : BitVec 4) :
    fieldY (formatRR op x y n) = y := by
  apply toFin_eq_of_bits
  apply BitVec.eq_of_getLsbD_eq
  intro i hi
  rw [BitVec.getLsbD_extractLsb', getLsbD_formatRR]
  simp [hi, show 4 + i < 8 by omega]

@[simp] theorem fieldN_formatRR (op : BitVec 4) (x y : Nibble) (n : BitVec 4) :
    fieldN (formatRR op x y n) = n.toFin := by
  have h : (formatRR op x y n).extractLsb' 0 4 = n := by
    apply BitVec.eq_of_getLsbD_eq
    intro i hi
    rw [BitVec.getLsbD_extractLsb', getLsbD_formatRR]
    simp [hi]
  simp only [fieldN, h]

/-- A word is its two bytes, the high one first (R66). -/
@[simp] theorem wordOfBytes_bytes (w : Word) : wordOfBytes (highByte w) (lowByte w) = w := by
  apply BitVec.eq_of_getLsbD_eq
  intro i hi
  refine (BitVec.getLsbD_append (x := highByte w) (y := lowByte w)).trans ?_
  simp only [highByte, lowByte, BitVec.getLsbD_extractLsb']
  by_cases h : i < 8
  · simp [h]
  · simp [h, show i - 8 < 8 by omega, show 8 + (i - 8) = i by omega]

/-- The number of the word of two bytes: `hi * 256 + lo` (R66). -/
theorem wordOfBytes_toNat (hi lo : Byte) :
    (wordOfBytes hi lo).toNat = hi.toNat * 256 + lo.toNat := by
  refine (BitVec.toNat_append hi lo).trans ?_
  rw [Nat.shiftLeft_eq, Nat.mul_comm, ← Nat.two_pow_add_eq_or_of_lt lo.isLt]

/-- A word is known by its family and the rest of its bits. -/
theorem word_eq_of_op_nnn {w w' : Word} (h : fieldOp w = fieldOp w')
    (h' : fieldNnn w = fieldNnn w') : w = w' := by
  apply BitVec.eq_of_getLsbD_eq
  intro i hi
  by_cases hlt : i < 12
  · have := congrArg (fun b => b.getLsbD i) h'
    simpa [fieldNnn, hlt] using this
  · have := congrArg (fun b => b.getLsbD (i - 12)) h
    simpa [fieldOp, show i - 12 < 4 by omega, show 12 + (i - 12) = i by omega] using this

/-! ### The fields as numbers (R91) -/

theorem fieldOp_toNat (w : Word) : (fieldOp w).toNat = w.toNat / 4096 := by
  have := w.isLt
  simp [fieldOp, Nat.shiftRight_eq_div_pow]
  omega

theorem fieldX_val (w : Word) : (fieldX w).val = w.toNat / 256 % 16 := by
  show ((w.extractLsb' 8 4).toNat) = _
  simp [Nat.shiftRight_eq_div_pow]

theorem fieldY_val (w : Word) : (fieldY w).val = w.toNat / 16 % 16 := by
  show ((w.extractLsb' 4 4).toNat) = _
  simp [Nat.shiftRight_eq_div_pow]

theorem fieldN_val (w : Word) : (fieldN w).val = w.toNat % 16 := by
  show ((w.extractLsb' 0 4).toNat) = _
  simp

theorem fieldKk_toNat (w : Word) : (fieldKk w).toNat = w.toNat % 256 := by
  simp [fieldKk]

theorem fieldNnn_toNat (w : Word) : (fieldNnn w).toNat = w.toNat % 4096 := by
  simp [fieldNnn]

/-! ### The opcode map's masks, as fields -/

theorem and_maskF000 (w : Word) : w &&& 0xF000#16 = formatA (fieldOp w) 0 := by
  apply BitVec.eq_of_getLsbD_eq
  intro i hi
  rw [BitVec.getLsbD_and, getLsbD_formatA]
  simp only [fieldOp, BitVec.getLsbD_extractLsb']
  interval_cases i <;> simp

theorem and_maskF00F (w : Word) :
    w &&& 0xF00F#16 = formatRR (fieldOp w) 0 0 (nibbleBits (fieldN w)) := by
  show _ = formatRR (fieldOp w) 0 0 (w.extractLsb' 0 4)
  apply BitVec.eq_of_getLsbD_eq
  intro i hi
  rw [BitVec.getLsbD_and, getLsbD_formatRR]
  simp only [fieldOp, nibbleBits, BitVec.getLsbD_extractLsb']
  interval_cases i <;> simp

theorem and_maskF0FF (w : Word) : w &&& 0xF0FF#16 = formatRK (fieldOp w) 0 (fieldKk w) := by
  apply BitVec.eq_of_getLsbD_eq
  intro i hi
  rw [BitVec.getLsbD_and, getLsbD_formatRK]
  simp only [fieldOp, fieldKk, nibbleBits, BitVec.getLsbD_extractLsb']
  interval_cases i <;> simp

/-- The bits a row fixes are those of its pattern (R94). -/
theorem OpRow.hits_iff (r : OpRow) (w : Word) : r.hits w = true ↔ w &&& r.mask = r.pattern := by
  simp [OpRow.hits]

/-- A row that fixes the family alone is hit by the words of that family. -/
theorem hits_family (w : Word) (op : BitVec 4) (name : String) :
    (OpRow.mk name (formatA op 0) 0xF000).hits w = true ↔ fieldOp w = op := by
  rw [OpRow.hits_iff]
  show w &&& 0xF000#16 = formatA op 0 ↔ _
  rw [and_maskF000]
  exact ⟨fun h => by simpa using congrArg fieldOp h, fun h => by rw [h]⟩

/-- A row that fixes the family and n is hit by the words with both. -/
theorem hits_family_n (w : Word) (op : BitVec 4) (n : Nibble) (name : String) :
    (OpRow.mk name (formatRR op 0 0 (nibbleBits n)) 0xF00F).hits w = true
      ↔ fieldOp w = op ∧ fieldN w = n := by
  rw [OpRow.hits_iff]
  show w &&& 0xF00F#16 = formatRR op 0 0 (nibbleBits n) ↔ _
  rw [and_maskF00F]
  exact ⟨fun h => ⟨by simpa using congrArg fieldOp h, by simpa using congrArg fieldN h⟩,
    fun h => by rw [h.1, h.2]⟩

/-- A row that fixes the family and kk is hit by the words with both. -/
theorem hits_family_kk (w : Word) (op : BitVec 4) (kk : Byte) (name : String) :
    (OpRow.mk name (formatRK op 0 kk) 0xF0FF).hits w = true ↔ fieldOp w = op ∧ fieldKk w = kk := by
  rw [OpRow.hits_iff]
  show w &&& 0xF0FF#16 = formatRK op 0 kk ↔ _
  rw [and_maskF0FF]
  exact ⟨fun h => ⟨by simpa using congrArg fieldOp h, by simpa using congrArg fieldKk h⟩,
    fun h => by rw [h.1, h.2]⟩

/-- A word that hits a row of the map is legal (R95). -/
theorem legalWord_of_hits {r : OpRow} {w : Word} (hr : r ∈ opcodeTable) (h : r.hits w = true) :
    legalWord w = true := List.any_eq_true.mpr ⟨r, hr, h⟩

/-! ### A word is its fields -/

theorem formatA_fields (w : Word) : formatA (fieldOp w) (fieldNnn w) = w :=
  word_eq_of_op_nnn (by simp) (by simp)

theorem formatRK_fields (w : Word) : formatRK (fieldOp w) (fieldX w) (fieldKk w) = w := by
  apply BitVec.eq_of_getLsbD_eq
  intro i hi
  rw [getLsbD_formatRK]
  show (if i < 8 then (w.extractLsb' 0 8).getLsbD i
    else if i < 12 then (w.extractLsb' 8 4).getLsbD (i - 8)
    else (w.extractLsb' 12 4).getLsbD (i - 12)) = _
  simp only [BitVec.getLsbD_extractLsb']
  interval_cases i <;> simp

theorem formatRR_fields (w : Word) :
    formatRR (fieldOp w) (fieldX w) (fieldY w) (nibbleBits (fieldN w)) = w := by
  apply BitVec.eq_of_getLsbD_eq
  intro i hi
  rw [getLsbD_formatRR]
  show (if i < 4 then (w.extractLsb' 0 4).getLsbD i
    else if i < 8 then (w.extractLsb' 4 4).getLsbD (i - 4)
    else if i < 12 then (w.extractLsb' 8 4).getLsbD (i - 8)
    else (w.extractLsb' 12 4).getLsbD (i - 12)) = _
  simp only [BitVec.getLsbD_extractLsb']
  interval_cases i <;> simp

end Sys2Proof
end

