-- ==== Sys2Proof/Laws/Framebuffer.lean ====
section
/-! SUPPORT. The framebuffer: what a pixel reads after a toggle, and a draw as a list of toggled
pixels, strictly rising, so that no draw meets a pixel twice (spec/44_framebuffer.md R235). -/

namespace Sys2Proof.Machine

/-- A toggle changes its own pixel and no other (R233). -/
theorem Frame.pixel_toggle (f : Frame) (p q : Nat) :
    (f.toggle p).pixel q = (f.pixel q ^^ decide (q = p ∧ p < 2048)) := by
  unfold Frame.pixel Frame.toggle
  by_cases hp : p / 64 < 32
  · by_cases hq : q / 64 < 32
    · simp only [hp, hq, dif_pos]
      rw [Vector.getElem_set]
      by_cases hrow : p / 64 = q / 64
      · by_cases hcol : p % 64 = q % 64
        · have hpq : q = p := by omega
          subst hpq
          simp [show q < 2048 by omega, Nat.mod_lt]
        · have hpq : q ≠ p := by omega
          simp [hrow, hpq, BitVec.getLsbD_twoPow, hcol]
      · have hpq : q ≠ p := by omega
        simp [hrow, hpq]
    · simp [hq, show q ≠ p by omega]
  · have hbig : ¬ p < 2048 := by omega
    simp [hp, hbig]

/-- A cleared framebuffer has no lit pixel (R232). -/
@[simp] theorem Frame.pixel_blank (p : Nat) : Frame.blank.pixel p = false := by
  unfold Frame.pixel Frame.blank
  split <;> simp

/-- An in-bounds pixel is one of the 2048 (R231). -/
theorem inFrame_lt {clip : Config.DrawClip} {r c : Nat} (h : inFrame clip r c = true) :
    r * 64 + c < 2048 := by
  cases clip <;> simp [inFrame] at h <;> omega

/-- One sprite bit of 1 meets pixel `p`: collision if it was 1, then the toggle (R233). -/
def plot (c : Canvas) (p : Nat) : Canvas := ⟨c.frame.toggle p, c.hit || c.frame.pixel p⟩

/-- The pixels one sprite row meets, left to right (R230, R231, R233). -/
def rowPlots (clip : Config.DrawClip) (r x0 : Nat) (byte : Byte) : List Nat :=
  (List.range 8).filterMap fun col =>
    if spriteBit byte col && inFrame clip r (x0 + col) then some (r * 64 + (x0 + col)) else none

/-- The pixels a sprite meets, row by row (R233). -/
def spritePlots (clip : Config.DrawClip) (x0 : Nat) : Nat → List Byte → List Nat
  | _, [] => []
  | r, byte :: rows => rowPlots clip r x0 byte ++ spritePlots clip x0 (r + 1) rows

theorem foldl_drawPixel (clip : Config.DrawClip) (r x0 : Nat) (byte : Byte) (cols : List Nat) :
    ∀ c : Canvas, cols.foldl (drawPixel clip r x0 byte) c =
      (cols.filterMap fun col => if spriteBit byte col && inFrame clip r (x0 + col)
        then some (r * 64 + (x0 + col)) else none).foldl plot c := by
  induction cols with
  | nil => intro c; rfl
  | cons col cols ih =>
    intro c
    rw [List.foldl_cons, ih, List.filterMap_cons, drawPixel]
    by_cases h : (spriteBit byte col && inFrame clip r (x0 + col)) = true
    · simp only [if_pos h]
      rfl
    · simp only [if_neg h]

/-- A draw is the plotting of its pixels in order. -/
theorem drawRows_eq_plots (clip : Config.DrawClip) (x0 : Nat) (rows : List Byte) :
    ∀ (r : Nat) (c : Canvas),
      drawRows clip x0 r rows c = (spritePlots clip x0 r rows).foldl plot c := by
  induction rows with
  | nil => intro r c; rfl
  | cons byte rows ih =>
    intro r c
    simp only [drawRows, spritePlots, List.foldl_append]
    rw [ih]
    congr 1
    exact foldl_drawPixel clip r x0 byte (List.range 8) c

theorem mem_rowPlots {clip : Config.DrawClip} {r x0 : Nat} {byte : Byte} {p : Nat} :
    p ∈ rowPlots clip r x0 byte ↔ ∃ col, col < 8 ∧ spriteBit byte col = true
      ∧ inFrame clip r (x0 + col) = true ∧ p = r * 64 + (x0 + col) := by
  simp only [rowPlots, List.mem_filterMap, List.mem_range, Option.ite_none_right_eq_some,
    Bool.and_eq_true, Option.some.injEq]
  constructor
  · rintro ⟨col, h, ⟨h1, h2⟩, rfl⟩; exact ⟨col, h, h1, h2, rfl⟩
  · rintro ⟨col, h, h1, h2, rfl⟩; exact ⟨col, h, ⟨h1, h2⟩, rfl⟩

theorem mem_spritePlots {clip : Config.DrawClip} {x0 : Nat} {p : Nat} (rows : List Byte) :
    ∀ r : Nat, p ∈ spritePlots clip x0 r rows ↔ ∃ row col, ∃ h : row < rows.length, col < 8
      ∧ spriteBit rows[row] col = true ∧ inFrame clip (r + row) (x0 + col) = true
      ∧ p = (r + row) * 64 + (x0 + col) := by
  induction rows with
  | nil => intro r; simp [spritePlots]
  | cons byte rows ih =>
    intro r
    simp only [spritePlots, List.mem_append, mem_rowPlots, ih]
    constructor
    · rintro (⟨col, h, h1, h2, h3⟩ | ⟨row, col, hr, h, h1, h2, h3⟩)
      · exact ⟨0, col, by simp, h, by simpa using h1, by simpa using h2, by simpa using h3⟩
      · refine ⟨row + 1, col, by simpa using hr, h, by simpa using h1, ?_, ?_⟩
        · rwa [show r + (row + 1) = r + 1 + row by omega]
        · rwa [show r + (row + 1) = r + 1 + row by omega]
    · rintro ⟨row, col, hr, h, h1, h2, h3⟩
      cases row with
      | zero => exact .inl ⟨col, h, by simpa using h1, by simpa using h2, by simpa using h3⟩
      | succ row =>
        refine .inr ⟨row, col, by simpa using hr, h, by simpa using h1, ?_, ?_⟩
        · rwa [show r + 1 + row = r + (row + 1) by omega]
        · rwa [show r + 1 + row = r + (row + 1) by omega]

/-- Every pixel a sprite meets is one of the 2048. -/
theorem spritePlots_lt {clip : Config.DrawClip} {x0 r p : Nat} {rows : List Byte}
    (h : p ∈ spritePlots clip x0 r rows) : p < 2048 := by
  obtain ⟨row, col, -, -, -, hin, rfl⟩ := (mem_spritePlots rows r).mp h
  exact inFrame_lt hin

/-- The pixels of a sprite come in strictly rising order, so none is met twice (R235). -/
theorem spritePlots_pairwise (clip : Config.DrawClip) (x0 : Nat) (rows : List Byte) :
    ∀ r : Nat, (spritePlots clip x0 r rows).Pairwise (· < ·) := by
  induction rows with
  | nil => intro r; exact List.Pairwise.nil
  | cons byte rows ih =>
    intro r
    simp only [spritePlots]
    rw [List.pairwise_append]
    refine ⟨?_, ih (r + 1), ?_⟩
    · unfold rowPlots
      rw [List.pairwise_filterMap]
      refine (List.pairwise_lt_range (n := 8)).imp ?_
      intro a b hab p hp q hq
      simp only [Option.ite_none_right_eq_some, Option.some.injEq] at hp hq
      omega
    · intro p hp q hq
      obtain ⟨col, h, -, -, rfl⟩ := mem_rowPlots.mp hp
      obtain ⟨row, col', -, -, -, -, rfl⟩ := (mem_spritePlots rows (r + 1)).mp hq
      have : (r + 1 + row) * 64 = r * 64 + 64 + row * 64 := by ring
      omega

/-- Plotting distinct pixels toggles exactly them, and hits when one of them was lit before. -/
theorem foldl_plot : ∀ (ps : List Nat) (c : Canvas), ps.Pairwise (· < ·) → (∀ p ∈ ps, p < 2048) →
    (∀ q, (ps.foldl plot c).frame.pixel q = (c.frame.pixel q ^^ decide (q ∈ ps)))
    ∧ ((ps.foldl plot c).hit = true ↔ c.hit = true ∨ ∃ p ∈ ps, c.frame.pixel p = true)
  | [], c, _, _ => ⟨fun q => by simp, by simp⟩
  | p :: ps, c, hpw, hlt => by
    rw [List.pairwise_cons] at hpw
    have hp := hlt p List.mem_cons_self
    obtain ⟨h1, h2⟩ := foldl_plot ps (plot c p) hpw.2
      fun q hq => hlt q (List.mem_cons_of_mem p hq)
    have hpix : ∀ q, (plot c p).frame.pixel q = (c.frame.pixel q ^^ decide (q = p)) := by
      intro q
      simp only [plot, Frame.pixel_toggle, hp, and_true]
    refine ⟨fun q => ?_, ?_⟩
    · rw [List.foldl_cons, h1, hpix]
      by_cases hq : q = p
      · subst hq
        have hn : q ∉ ps := fun hm => Nat.lt_irrefl q (hpw.1 q hm)
        simp [hn]
      · simp [hq]
    · rw [List.foldl_cons, h2]
      have hcong : (∃ q ∈ ps, (plot c p).frame.pixel q = true)
          ↔ ∃ q ∈ ps, c.frame.pixel q = true := by
        refine exists_congr fun q => and_congr_right fun hm => ?_
        have hq : q ≠ p := fun he => Nat.lt_irrefl p (hpw.1 p (he ▸ hm))
        rw [hpix]
        simp [hq]
      rw [hcong]
      simp [plot, or_assoc]

/-- What a draw does (R233): the pixels it meets are toggled and no other; it hits when one of
them was lit before. -/
theorem drawRows_spec (clip : Config.DrawClip) (x0 r : Nat) (rows : List Byte) (f : Frame) :
    (∀ q, (drawRows clip x0 r rows ⟨f, false⟩).frame.pixel q
      = (f.pixel q ^^ decide (q ∈ spritePlots clip x0 r rows)))
    ∧ ((drawRows clip x0 r rows ⟨f, false⟩).hit = true
      ↔ ∃ p ∈ spritePlots clip x0 r rows, f.pixel p = true) := by
  rw [drawRows_eq_plots]
  have h := foldl_plot (spritePlots clip x0 r rows) ⟨f, false⟩
    (spritePlots_pairwise clip x0 rows r) fun p hp => spritePlots_lt hp
  simpa using h

end Sys2Proof.Machine
end

