-- ==== Sys2Proof/Laws/Memory.lean ====
section
/-! SUPPORT. The laws of memory: what a read gives after a write, that every operation keeps the
canonical form, that the form is canonical, and one spec lemma for each block access. -/

namespace Sys2Proof.Machine

@[simp] theorem Memory.read_nil (a : Nat) : Memory.read [] a = background a := rfl

/-- A canonical memory from `lo` on is one from any lower address on. -/
theorem Memory.wfFrom_mono {lo lo' : Nat} (h : lo' ≤ lo) : ∀ {m : Memory},
    Memory.wfFrom lo m = true → Memory.wfFrom lo' m = true
  | [], _ => rfl
  | (k, b) :: m, hm => by
    simp only [Memory.wfFrom, Bool.and_eq_true, decide_eq_true_eq] at hm ⊢
    exact ⟨⟨⟨by omega, hm.1.1.2⟩, hm.1.2⟩, hm.2⟩

/-- Below its first possible address a canonical memory reads as the background. -/
theorem Memory.read_of_lt {lo a : Nat} (h : a < lo) : ∀ {m : Memory},
    Memory.wfFrom lo m = true → m.read a = background a
  | [], _ => rfl
  | (k, b) :: m, hm => by
    simp only [Memory.wfFrom, Bool.and_eq_true, decide_eq_true_eq] at hm
    have hk : k ≠ a := by omega
    simp only [Memory.read, if_neg hk]
    exact Memory.read_of_lt (lo := k + 1) (by omega) hm.2

/-- Outside the address space a canonical memory reads as the background. -/
theorem Memory.read_of_ge {a : Nat} (h : Config.memSize ≤ a) : ∀ {lo : Nat} {m : Memory},
    Memory.wfFrom lo m = true → m.read a = background a
  | _, [], _ => rfl
  | lo, (k, b) :: m, hm => by
    simp only [Memory.wfFrom, Bool.and_eq_true, decide_eq_true_eq] at hm
    have hk : k ≠ a := by omega
    simp only [Memory.read, if_neg hk]
    exact Memory.read_of_ge h hm.2

/-- Writing keeps the canonical form. -/
theorem Memory.write_wfFrom {a : Nat} (b : Byte) (ha : a < Config.memSize) :
    ∀ {lo : Nat} {m : Memory}, lo ≤ a → Memory.wfFrom lo m = true →
      Memory.wfFrom lo (m.write a b) = true
  | lo, [], hlo, _ => by
    simp only [Memory.write]
    split
    · rfl
    · rename_i hb
      simp [Memory.wfFrom, hlo, ha, hb]
  | lo, (k, c) :: m, hlo, hm => by
    have hm' := hm
    simp only [Memory.wfFrom, Bool.and_eq_true, decide_eq_true_eq] at hm
    obtain ⟨⟨⟨h1, h2⟩, h3⟩, h4⟩ := hm
    simp only [Memory.write]
    split
    · split
      · exact hm'
      · rename_i hak hb
        simp only [Memory.wfFrom, Bool.and_eq_true, decide_eq_true_eq]
        exact ⟨⟨⟨hlo, ha⟩, hb⟩, ⟨⟨by omega, h2⟩, h3⟩, h4⟩
    · split
      · split
        · exact Memory.wfFrom_mono (by omega) h4
        · rename_i hak hb
          simp only [Memory.wfFrom, Bool.and_eq_true, decide_eq_true_eq]
          subst hak
          exact ⟨⟨⟨hlo, ha⟩, hb⟩, h4⟩
      · simp only [Memory.wfFrom, Bool.and_eq_true, decide_eq_true_eq]
        exact ⟨⟨⟨h1, h2⟩, h3⟩, Memory.write_wfFrom b ha (by omega) h4⟩

/-- Writing keeps the canonical form of memory. -/
theorem Memory.write_wf {m : Memory} {a : Nat} (b : Byte) (ha : a < Config.memSize)
    (hm : m.wf = true) : (m.write a b).wf = true := Memory.write_wfFrom b ha (Nat.zero_le a) hm

/-- A read after a write gives the byte written there, and elsewhere what it gave before. -/
theorem Memory.read_write_from (a c : Nat) (b : Byte) : ∀ {lo : Nat} {m : Memory},
    Memory.wfFrom lo m = true → (m.write a b).read c = if c = a then b else m.read c
  | _, [], _ => by
    simp only [Memory.write, Memory.read]
    split
    · split <;> simp_all
    · simp only [Memory.read, eq_comm (a := a)]
  | lo, (k, d) :: m, hm => by
    simp only [Memory.wfFrom, Bool.and_eq_true, decide_eq_true_eq] at hm
    obtain ⟨⟨⟨-, -⟩, -⟩, h4⟩ := hm
    simp only [Memory.write]
    split
    · rename_i hak
      split
      · rename_i hb
        split
        · rename_i hca
          subst hca
          have hk : k ≠ c := by omega
          simp only [Memory.read, if_neg hk]
          rw [Memory.read_of_lt (by omega) h4, hb]
        · rfl
      · simp only [Memory.read, eq_comm (a := a)]
    · split
      · rename_i hak
        subst hak
        split
        · rename_i hb
          split
          · rename_i hca
            subst hca
            rw [Memory.read_of_lt (Nat.lt_succ_self _) h4, hb]
          · rename_i hca
            simp only [Memory.read, if_neg (Ne.symm hca)]
        · simp only [Memory.read, eq_comm (a := a)]
          split <;> rfl
      · rename_i hka
        simp only [Memory.read]
        split
        · rename_i hkc
          rw [if_neg (by omega)]
        · exact Memory.read_write_from a c b h4

/-- A read after a write to a canonical memory. -/
theorem Memory.read_write {m : Memory} (hm : m.wf = true) (a c : Nat) (b : Byte) :
    (m.write a b).read c = if c = a then b else m.read c := Memory.read_write_from a c b hm

/-- The first pair of a canonical memory reads as its byte. -/
theorem Memory.read_head (k : Nat) (b : Byte) (m : Memory) :
    Memory.read ((k, b) :: m) k = b := by simp [Memory.read]

/-- Two canonical memories that read alike are equal lists. -/
theorem Memory.eq_of_read_from : ∀ {lo : Nat} {m m' : Memory}, Memory.wfFrom lo m = true →
    Memory.wfFrom lo m' = true → (∀ a, m.read a = m'.read a) → m = m'
  | _, [], [], _, _, _ => rfl
  | _, [], (k, b) :: m', _, h', hr => by
    simp only [Memory.wfFrom, Bool.and_eq_true, decide_eq_true_eq] at h'
    have := hr k
    simp only [Memory.read_nil, Memory.read_head] at this
    exact absurd this.symm h'.1.2
  | _, (k, b) :: m, [], h, _, hr => by
    simp only [Memory.wfFrom, Bool.and_eq_true, decide_eq_true_eq] at h
    have := hr k
    simp only [Memory.read_nil, Memory.read_head] at this
    exact absurd this h.1.2
  | lo, (k, b) :: m, (k', b') :: m', h, h', hr => by
    have hm := h
    have hm' := h'
    simp only [Memory.wfFrom, Bool.and_eq_true, decide_eq_true_eq] at h h'
    obtain ⟨⟨⟨h1, h2⟩, h3⟩, h4⟩ := h
    obtain ⟨⟨⟨h1', h2'⟩, h3'⟩, h4'⟩ := h'
    have hkk : k = k' := by
      rcases Nat.lt_trichotomy k k' with hlt | heq | hgt
      · have e := hr k
        rw [Memory.read_head] at e
        simp only [Memory.read, if_neg (show k' ≠ k by omega)] at e
        rw [Memory.read_of_lt (by omega) h4'] at e
        exact absurd e h3
      · exact heq
      · have e := hr k'
        rw [Memory.read_head] at e
        simp only [Memory.read, if_neg (show k ≠ k' by omega)] at e
        rw [Memory.read_of_lt (by omega) h4] at e
        exact absurd e.symm h3'
    subst hkk
    have hb : b = b' := by
      have e := hr k
      rwa [Memory.read_head, Memory.read_head] at e
    subst hb
    have hrest : m = m' := by
      refine Memory.eq_of_read_from h4 h4' fun a => ?_
      by_cases ha : k = a
      · subst ha
        rw [Memory.read_of_lt (Nat.lt_succ_self _) h4, Memory.read_of_lt (Nat.lt_succ_self _) h4']
      · have e := hr a
        simpa only [Memory.read, if_neg ha] using e
    rw [hrest]

/-! ### The one-byte primitives -/

theorem memRead_of_lt (m : Memory) {a : Nat} (h : a < Config.memSize) :
    memRead m a = .ok (m.read a) := if_pos h

theorem memRead_of_ge (m : Memory) {a : Nat} (h : ¬ a < Config.memSize) :
    memRead m a = .error ⟨.memoryOutOfRange, a⟩ := if_neg h

theorem memWrite_of_lt (m : Memory) {a : Nat} (b : Byte) (h : a < Config.memSize) :
    memWrite m a b = .ok (m.write a b) := if_pos h

theorem memWrite_of_ge (m : Memory) {a : Nat} (b : Byte) (h : ¬ a < Config.memSize) :
    memWrite m a b = .error ⟨.memoryOutOfRange, a⟩ := if_neg h

/-! ### The block accesses -/

/-- A block that fits is stored: canonical memory again, byte `k` of the block at `a + k`, every
other address as before. -/
theorem storeBytes_ok : ∀ (bs : List Byte) {m : Memory} {a : Nat}, m.wf = true →
    a + bs.length ≤ Config.memSize →
    ∃ m', storeBytes m a bs = .ok m' ∧ m'.wf = true
      ∧ ∀ c, m'.read c = if a ≤ c then bs.getD (c - a) (m.read c) else m.read c
  | [], m, a, hm, _ => ⟨m, rfl, hm, fun c => by simp⟩
  | b :: bs, m, a, hm, h => by
    have ha : a < Config.memSize := by simp only [List.length_cons] at h; omega
    obtain ⟨m', e, wf', hr⟩ := storeBytes_ok bs (a := a + 1) (Memory.write_wf b ha hm)
      (by simp only [List.length_cons] at h; omega)
    refine ⟨m', by simp only [storeBytes, memWrite_of_lt m b ha]; exact e, wf', fun c => ?_⟩
    rw [hr, Memory.read_write hm]
    rcases Nat.lt_trichotomy a c with hc | hc | hc
    · have h1 : c - a = (c - (a + 1)) + 1 := by omega
      simp [show a + 1 ≤ c by omega, show a ≤ c by omega, show c ≠ a by omega, h1]
    · subst hc; simp
    · simp [show ¬ a + 1 ≤ c by omega, show ¬ a ≤ c by omega, show c ≠ a by omega]

/-- A nonempty block that does not fit halts with its first address out of range (R274). -/
theorem storeBytes_halt : ∀ (bs : List Byte) {m : Memory} {a : Nat}, bs ≠ [] →
    Config.memSize < a + bs.length →
    storeBytes m a bs = .error ⟨.memoryOutOfRange, max a Config.memSize⟩
  | [], _, _, h, _ => absurd rfl h
  | b :: bs, m, a, _, h => by
    by_cases ha : a < Config.memSize
    · have hne : bs ≠ [] := by
        rintro rfl
        simp only [List.length_cons, List.length_nil] at h
        omega
      simp only [storeBytes, memWrite_of_lt m b ha]
      rw [storeBytes_halt bs hne (by simp only [List.length_cons] at h; omega)]
      congr 2
      omega
    · simp only [storeBytes, memWrite_of_ge m b ha]
      congr 2
      omega

/-- A block inside memory is read: byte `k` from `a + k`. -/
theorem loadBytes_ok (m : Memory) : ∀ (n : Nat) {a : Nat}, n = 0 ∨ a + n ≤ Config.memSize →
    loadBytes m a n = .ok ((List.range n).map fun k => m.read (a + k))
  | 0, _, _ => rfl
  | n + 1, a, h => by
    have ha : a < Config.memSize := by omega
    simp only [loadBytes, memRead_of_lt m ha]
    rw [loadBytes_ok m n (by omega)]
    simp [List.range_succ_eq_map, Nat.add_assoc, Nat.add_comm 1]

/-- A nonempty block that leaves memory halts with its first address out of range (R274). -/
theorem loadBytes_halt (m : Memory) : ∀ (n : Nat) {a : Nat}, n ≠ 0 → Config.memSize < a + n →
    loadBytes m a n = .error ⟨.memoryOutOfRange, max a Config.memSize⟩
  | 0, _, h, _ => absurd rfl h
  | n + 1, a, _, h => by
    by_cases ha : a < Config.memSize
    · have hmax : max (a + 1) Config.memSize = max a Config.memSize := by omega
      simp only [loadBytes, memRead_of_lt m ha]
      rw [loadBytes_halt m n (by omega) (by omega), hmax]
    · simp only [loadBytes, memRead_of_ge m ha]
      congr 2
      omega

/-- A block store either stores a canonical memory, or halts with an address out of range that the
block reaches. -/
theorem storeBytes_cases (bs : List Byte) {m : Memory} (a : Nat) (hm : m.wf = true) :
    (∃ m', storeBytes m a bs = .ok m' ∧ m'.wf = true)
    ∨ ∃ c, storeBytes m a bs = .error ⟨.memoryOutOfRange, c⟩
        ∧ Config.memSize ≤ c ∧ c < max (a + bs.length) (Config.memSize + 1) := by
  by_cases h : a + bs.length ≤ Config.memSize
  · obtain ⟨m', e, wf', -⟩ := storeBytes_ok bs hm h
    exact .inl ⟨m', e, wf'⟩
  · by_cases hb : bs = []
    · subst hb
      exact .inl ⟨m, rfl, hm⟩
    · have hl : 0 < bs.length := List.length_pos_iff.mpr hb
      exact .inr ⟨_, storeBytes_halt bs hb (by omega), by omega, by omega⟩

/-! ### Memory from a function -/

/-- A listing of rising addresses from `lo` is canonical and reads as the function. -/
theorem Memory.ofBytes_range' (f : Nat → Byte) : ∀ (n lo : Nat), lo + n ≤ Config.memSize →
    let m : Memory := (List.range' lo n).filterMap
      fun a => if f a = background a then none else some (a, f a)
    Memory.wfFrom lo m = true
      ∧ ∀ a, m.read a = if lo ≤ a ∧ a < lo + n then f a else background a
  | 0, lo, _ => ⟨rfl, fun a => by simp⟩
  | n + 1, lo, h => by
    obtain ⟨h1, h2⟩ := Memory.ofBytes_range' f n (lo + 1) (by omega)
    simp only [List.range'_succ, List.filterMap_cons]
    by_cases hb : f lo = background lo
    · simp only [if_pos hb]
      refine ⟨Memory.wfFrom_mono (Nat.le_succ lo) h1, fun a => ?_⟩
      rw [h2]
      by_cases ha : a = lo
      · subst ha; simp [hb]
      · by_cases h3 : lo + 1 ≤ a ∧ a < lo + 1 + n
        · rw [if_pos h3, if_pos (by omega)]
        · rw [if_neg h3, if_neg (by omega)]
    · simp only [if_neg hb]
      refine ⟨?_, fun a => ?_⟩
      · simp only [Memory.wfFrom, Bool.and_eq_true, decide_eq_true_eq]
        exact ⟨⟨⟨Nat.le_refl lo, by omega⟩, hb⟩, h1⟩
      · simp only [Memory.read]
        by_cases ha : lo = a
        · subst ha; simp
        · rw [if_neg ha, h2]
          by_cases h3 : lo + 1 ≤ a ∧ a < lo + 1 + n
          · rw [if_pos h3, if_pos (by omega)]
          · rw [if_neg h3, if_neg (by omega)]

/-- Memory built from a function is canonical. -/
theorem Memory.ofBytes_wf (f : Nat → Byte) : (Memory.ofBytes f).wf = true := by
  have h := (Memory.ofBytes_range' f Config.memSize 0 (by omega)).1
  simpa only [Memory.wf, Memory.ofBytes, List.range_eq_range'] using h

/-- Memory built from a function reads as the function inside the address space. -/
theorem Memory.read_ofBytes (f : Nat → Byte) (a : Nat) :
    (Memory.ofBytes f).read a = if a < Config.memSize then f a else background a := by
  have h := (Memory.ofBytes_range' f Config.memSize 0 (by omega)).2 a
  simpa only [Memory.ofBytes, List.range_eq_range', Nat.zero_le, true_and, Nat.zero_add] using h

end Sys2Proof.Machine
end

