-- ==== Sys2Proof/Laws/Operands.lean ====
section
/-! SUPPORT. Each operand form and each flag as plain arithmetic on naturals. -/

namespace Sys2Proof.Machine

theorem zext16_toNat (a : Addr12) : (zext16 a).toNat = a.toNat := by
  simp only [zext16, BitVec.toNat_ofNat]
  have := a.isLt
  omega

theorem sumByte_toNat (a b : Byte) : (sumByte a b).toNat = (a.toNat + b.toNat) % 256 := by
  simp [sumByte]

theorem differenceByte_toNat (a b : Byte) :
    ((differenceByte a b).toNat : Int) = (a.toNat - b.toNat : Int) % 256 := by
  simp only [differenceByte, BitVec.toNat_ofNat]
  have := b.isLt
  omega

theorem halfByte_toNat (a : Byte) : (halfByte a).toNat = a.toNat / 2 := by
  simp only [halfByte, BitVec.toNat_ofNat]
  have := a.isLt
  omega

theorem doubleByte_toNat (a : Byte) : (doubleByte a).toNat = 2 * a.toNat % 256 := by
  simp [doubleByte]

theorem indexSum_toNat (i : Word) (a : Byte) :
    (indexSum i a).toNat = (i.toNat + a.toNat) % 65536 := by
  simp [indexSum]

theorem offsetTarget_toNat (nnn : Addr12) (a : Byte) :
    (offsetTarget (zext16 nnn) a).toNat = nnn.toNat + a.toNat := by
  simp only [offsetTarget, zext16_toNat, BitVec.toNat_ofNat]
  have := a.isLt
  have := nnn.isLt
  omega

theorem carryFlag_eq (a b : Byte) :
    carryFlag a b = if a.toNat + b.toNat > 255 then 1 else 0 := by
  simp [carryFlag, flagByte]

theorem notBorrowFlag_eq (a b : Byte) :
    notBorrowFlag a b = if a.toNat > b.toNat then 1 else 0 := by
  simp [notBorrowFlag, flagByte]

/-- A bit as a flag value. -/
theorem flagByte_bit_toNat (a : Byte) (k : Nat) :
    (flagByte (a.getLsbD k)).toNat = a.toNat / 2 ^ k % 2 := by
  rw [flagByte, BitVec.getLsbD, Nat.testBit_eq_decide_div_mod_eq]
  by_cases h : a.toNat / 2 ^ k % 2 = 1
  · simp [h]
  · simp [h]
    omega

theorem shiftedOutLow_toNat (a : Byte) : (shiftedOutLow a).toNat = a.toNat % 2 := by
  rw [shiftedOutLow, flagByte_bit_toNat]
  simp

theorem shiftedOutHigh_toNat (a : Byte) : (shiftedOutHigh a).toNat = a.toNat / 128 := by
  simp only [shiftedOutHigh, flagByte_bit_toNat]
  have := a.isLt
  omega

theorem glyphAddress_of_lt {a : Byte} (h : a.toNat < 16) :
    glyphAddress a = some (BitVec.ofNat 16 (5 * a.toNat)) := if_pos h

theorem glyphAddress_of_ge {a : Byte} (h : 16 ≤ a.toNat) : glyphAddress a = none :=
  if_neg (by omega)

end Sys2Proof.Machine
end

