-- ==== Sys2Proof/Laws/PerInstr.lean ====
section
/-! SUPPORT. Statements made once per instruction: the word of every instruction is of the row of
the opcode map (R94, R95). -/

namespace Sys2Proof.Laws.EncodesInTable

/-- The word of the instruction is a word of the opcode map. -/
def Statement (i : Instr) : Prop := legalWord (encode i) = true

theorem cls : Statement .cls :=
  show legalWord _ = true by decide
theorem ret : Statement .ret :=
  show legalWord _ = true by decide
theorem jp (nnn : Addr12) : Statement (.jp nnn) :=
  legalWord_of_hits (by decide) ((hits_family _ 0x1 "JP_nnn").2 (by simp [encode]))
theorem call (nnn : Addr12) : Statement (.call nnn) :=
  legalWord_of_hits (by decide) ((hits_family _ 0x2 "CALL_nnn").2 (by simp [encode]))
theorem seImm (x : Nibble) (kk : Byte) : Statement (.seImm x kk) :=
  legalWord_of_hits (by decide) ((hits_family _ 0x3 "SE_Vx__kk").2 (by simp [encode]))
theorem sneImm (x : Nibble) (kk : Byte) : Statement (.sneImm x kk) :=
  legalWord_of_hits (by decide) ((hits_family _ 0x4 "SNE_Vx__kk").2 (by simp [encode]))
theorem seReg (x : Nibble) (y : Nibble) : Statement (.seReg x y) :=
  legalWord_of_hits (by decide) ((hits_family_n _ 0x5 0x0 "SE_Vx__Vy").2
    ⟨fieldOp_formatRR .., fieldN_formatRR ..⟩)
theorem ldImm (x : Nibble) (kk : Byte) : Statement (.ldImm x kk) :=
  legalWord_of_hits (by decide) ((hits_family _ 0x6 "LD_Vx__kk").2 (by simp [encode]))
theorem addImm (x : Nibble) (kk : Byte) : Statement (.addImm x kk) :=
  legalWord_of_hits (by decide) ((hits_family _ 0x7 "ADD_Vx__kk").2 (by simp [encode]))
theorem ldReg (x : Nibble) (y : Nibble) : Statement (.ldReg x y) :=
  legalWord_of_hits (by decide) ((hits_family_n _ 0x8 0x0 "LD_Vx__Vy").2
    ⟨fieldOp_formatRR .., fieldN_formatRR ..⟩)
theorem orReg (x : Nibble) (y : Nibble) : Statement (.orReg x y) :=
  legalWord_of_hits (by decide) ((hits_family_n _ 0x8 0x1 "OR_Vx__Vy").2
    ⟨fieldOp_formatRR .., fieldN_formatRR ..⟩)
theorem andReg (x : Nibble) (y : Nibble) : Statement (.andReg x y) :=
  legalWord_of_hits (by decide) ((hits_family_n _ 0x8 0x2 "AND_Vx__Vy").2
    ⟨fieldOp_formatRR .., fieldN_formatRR ..⟩)
theorem xorReg (x : Nibble) (y : Nibble) : Statement (.xorReg x y) :=
  legalWord_of_hits (by decide) ((hits_family_n _ 0x8 0x3 "XOR_Vx__Vy").2
    ⟨fieldOp_formatRR .., fieldN_formatRR ..⟩)
theorem addReg (x : Nibble) (y : Nibble) : Statement (.addReg x y) :=
  legalWord_of_hits (by decide) ((hits_family_n _ 0x8 0x4 "ADD_Vx__Vy").2
    ⟨fieldOp_formatRR .., fieldN_formatRR ..⟩)
theorem subReg (x : Nibble) (y : Nibble) : Statement (.subReg x y) :=
  legalWord_of_hits (by decide) ((hits_family_n _ 0x8 0x5 "SUB_Vx__Vy").2
    ⟨fieldOp_formatRR .., fieldN_formatRR ..⟩)
theorem shr (x : Nibble) : Statement (.shr x) :=
  legalWord_of_hits (by decide) ((hits_family_n _ 0x8 0x6 "SHR_Vx").2
    ⟨fieldOp_formatRR .., fieldN_formatRR ..⟩)
theorem subnReg (x : Nibble) (y : Nibble) : Statement (.subnReg x y) :=
  legalWord_of_hits (by decide) ((hits_family_n _ 0x8 0x7 "SUBN_Vx__Vy").2
    ⟨fieldOp_formatRR .., fieldN_formatRR ..⟩)
theorem shl (x : Nibble) : Statement (.shl x) :=
  legalWord_of_hits (by decide) ((hits_family_n _ 0x8 0xE "SHL_Vx").2
    ⟨fieldOp_formatRR .., fieldN_formatRR ..⟩)
theorem sneReg (x : Nibble) (y : Nibble) : Statement (.sneReg x y) :=
  legalWord_of_hits (by decide) ((hits_family_n _ 0x9 0x0 "SNE_Vx__Vy").2
    ⟨fieldOp_formatRR .., fieldN_formatRR ..⟩)
theorem ldI (nnn : Addr12) : Statement (.ldI nnn) :=
  legalWord_of_hits (by decide) ((hits_family _ 0xA "LD_I__nnn").2 (by simp [encode]))
theorem jpV0 (nnn : Addr12) : Statement (.jpV0 nnn) :=
  legalWord_of_hits (by decide) ((hits_family _ 0xB "JP_V0__nnn").2 (by simp [encode]))
theorem rnd (x : Nibble) (kk : Byte) : Statement (.rnd x kk) :=
  legalWord_of_hits (by decide) ((hits_family _ 0xC "RND_Vx__kk").2 (by simp [encode]))
theorem drw (x : Nibble) (y : Nibble) (n : Nibble) : Statement (.drw x y n) :=
  legalWord_of_hits (by decide) ((hits_family _ 0xD "DRW_Vx__Vy__n").2 (by simp [encode]))
theorem skp (x : Nibble) : Statement (.skp x) :=
  legalWord_of_hits (by decide) ((hits_family_kk _ 0xE 0x9E "SKP_Vx").2 (by simp [encode]))
theorem sknp (x : Nibble) : Statement (.sknp x) :=
  legalWord_of_hits (by decide) ((hits_family_kk _ 0xE 0xA1 "SKNP_Vx").2 (by simp [encode]))
theorem ldVxDt (x : Nibble) : Statement (.ldVxDt x) :=
  legalWord_of_hits (by decide) ((hits_family_kk _ 0xF 0x07 "LD_Vx__DT").2 (by simp [encode]))
theorem ldVxK (x : Nibble) : Statement (.ldVxK x) :=
  legalWord_of_hits (by decide) ((hits_family_kk _ 0xF 0x0A "LD_Vx__K").2 (by simp [encode]))
theorem ldDtVx (x : Nibble) : Statement (.ldDtVx x) :=
  legalWord_of_hits (by decide) ((hits_family_kk _ 0xF 0x15 "LD_DT__Vx").2 (by simp [encode]))
theorem ldStVx (x : Nibble) : Statement (.ldStVx x) :=
  legalWord_of_hits (by decide) ((hits_family_kk _ 0xF 0x18 "LD_ST__Vx").2 (by simp [encode]))
theorem addI (x : Nibble) : Statement (.addI x) :=
  legalWord_of_hits (by decide) ((hits_family_kk _ 0xF 0x1E "ADD_I__Vx").2 (by simp [encode]))
theorem ldF (x : Nibble) : Statement (.ldF x) :=
  legalWord_of_hits (by decide) ((hits_family_kk _ 0xF 0x29 "LD_F__Vx").2 (by simp [encode]))
theorem ldB (x : Nibble) : Statement (.ldB x) :=
  legalWord_of_hits (by decide) ((hits_family_kk _ 0xF 0x33 "LD_B__Vx").2 (by simp [encode]))
theorem storeRegs (x : Nibble) : Statement (.storeRegs x) :=
  legalWord_of_hits (by decide) ((hits_family_kk _ 0xF 0x55 "LD__I___Vx").2 (by simp [encode]))
theorem loadRegs (x : Nibble) : Statement (.loadRegs x) :=
  legalWord_of_hits (by decide) ((hits_family_kk _ 0xF 0x65 "LD_Vx___I").2 (by simp [encode]))

end Sys2Proof.Laws.EncodesInTable
end

