-- ==== Sys2Proof/Laws/State.lean ====
section
/-! SUPPORT. The small lemmas of the state updates: one per field and update, true by definition,
so that no later proof unfolds a record update; and what a register or key read gives after one. -/

namespace Sys2Proof.Machine

/-! ### setReg -/

@[simp] theorem State.setReg_v (s : State) (x : Nibble) (b : Byte) :
    (s.setReg x b).v = s.v.set x b := rfl
@[simp] theorem State.setReg_pc (s : State) (x : Nibble) (b : Byte) :
    (s.setReg x b).pc = s.pc := rfl
@[simp] theorem State.setReg_i (s : State) (x : Nibble) (b : Byte) :
    (s.setReg x b).i = s.i := rfl
@[simp] theorem State.setReg_dt (s : State) (x : Nibble) (b : Byte) :
    (s.setReg x b).dt = s.dt := rfl
@[simp] theorem State.setReg_st (s : State) (x : Nibble) (b : Byte) :
    (s.setReg x b).st = s.st := rfl
@[simp] theorem State.setReg_stack (s : State) (x : Nibble) (b : Byte) :
    (s.setReg x b).stack = s.stack := rfl
@[simp] theorem State.setReg_depth (s : State) (x : Nibble) (b : Byte) :
    (s.setReg x b).depth = s.depth := rfl
@[simp] theorem State.setReg_mem (s : State) (x : Nibble) (b : Byte) :
    (s.setReg x b).mem = s.mem := rfl
@[simp] theorem State.setReg_fb (s : State) (x : Nibble) (b : Byte) :
    (s.setReg x b).fb = s.fb := rfl
@[simp] theorem State.setReg_keys (s : State) (x : Nibble) (b : Byte) :
    (s.setReg x b).keys = s.keys := rfl
@[simp] theorem State.setReg_run (s : State) (x : Nibble) (b : Byte) :
    (s.setReg x b).run = s.run := rfl
@[simp] theorem State.setReg_drawFlag (s : State) (x : Nibble) (b : Byte) :
    (s.setReg x b).drawFlag = s.drawFlag := rfl
@[simp] theorem State.setReg_events (s : State) (x : Nibble) (b : Byte) :
    (s.setReg x b).events = s.events := rfl
@[simp] theorem State.setReg_drawClip (s : State) (x : Nibble) (b : Byte) :
    (s.setReg x b).drawClip = s.drawClip := rfl
@[simp] theorem State.setReg_draws (s : State) (x : Nibble) (b : Byte) :
    (s.setReg x b).draws = s.draws := rfl

/-! ### clearKeys -/

@[simp] theorem State.clearKeys_v (s : State) :
    (s.clearKeys).v = s.v := rfl
@[simp] theorem State.clearKeys_pc (s : State) :
    (s.clearKeys).pc = s.pc := rfl
@[simp] theorem State.clearKeys_i (s : State) :
    (s.clearKeys).i = s.i := rfl
@[simp] theorem State.clearKeys_dt (s : State) :
    (s.clearKeys).dt = s.dt := rfl
@[simp] theorem State.clearKeys_st (s : State) :
    (s.clearKeys).st = s.st := rfl
@[simp] theorem State.clearKeys_stack (s : State) :
    (s.clearKeys).stack = s.stack := rfl
@[simp] theorem State.clearKeys_depth (s : State) :
    (s.clearKeys).depth = s.depth := rfl
@[simp] theorem State.clearKeys_mem (s : State) :
    (s.clearKeys).mem = s.mem := rfl
@[simp] theorem State.clearKeys_fb (s : State) :
    (s.clearKeys).fb = s.fb := rfl
@[simp] theorem State.clearKeys_keys (s : State) :
    (s.clearKeys).keys = Vector.replicate 16 false := rfl
@[simp] theorem State.clearKeys_run (s : State) :
    (s.clearKeys).run = s.run := rfl
@[simp] theorem State.clearKeys_drawFlag (s : State) :
    (s.clearKeys).drawFlag = s.drawFlag := rfl
@[simp] theorem State.clearKeys_events (s : State) :
    (s.clearKeys).events = s.events := rfl
@[simp] theorem State.clearKeys_drawClip (s : State) :
    (s.clearKeys).drawClip = s.drawClip := rfl
@[simp] theorem State.clearKeys_draws (s : State) :
    (s.clearKeys).draws = s.draws := rfl

/-! ### advancePc -/

@[simp] theorem State.advancePc_v (s : State) :
    (s.advancePc).v = s.v := rfl
@[simp] theorem State.advancePc_pc (s : State) :
    (s.advancePc).pc = advancedPc s.pc := rfl
@[simp] theorem State.advancePc_i (s : State) :
    (s.advancePc).i = s.i := rfl
@[simp] theorem State.advancePc_dt (s : State) :
    (s.advancePc).dt = s.dt := rfl
@[simp] theorem State.advancePc_st (s : State) :
    (s.advancePc).st = s.st := rfl
@[simp] theorem State.advancePc_stack (s : State) :
    (s.advancePc).stack = s.stack := rfl
@[simp] theorem State.advancePc_depth (s : State) :
    (s.advancePc).depth = s.depth := rfl
@[simp] theorem State.advancePc_mem (s : State) :
    (s.advancePc).mem = s.mem := rfl
@[simp] theorem State.advancePc_fb (s : State) :
    (s.advancePc).fb = s.fb := rfl
@[simp] theorem State.advancePc_keys (s : State) :
    (s.advancePc).keys = s.keys := rfl
@[simp] theorem State.advancePc_run (s : State) :
    (s.advancePc).run = s.run := rfl
@[simp] theorem State.advancePc_drawFlag (s : State) :
    (s.advancePc).drawFlag = s.drawFlag := rfl
@[simp] theorem State.advancePc_events (s : State) :
    (s.advancePc).events = s.events := rfl
@[simp] theorem State.advancePc_drawClip (s : State) :
    (s.advancePc).drawClip = s.drawClip := rfl
@[simp] theorem State.advancePc_draws (s : State) :
    (s.advancePc).draws = s.draws := rfl

/-! ### jump -/

@[simp] theorem State.jump_v (s : State) (a : Word) :
    (s.jump a).v = s.v := rfl
@[simp] theorem State.jump_pc (s : State) (a : Word) :
    (s.jump a).pc = a := rfl
@[simp] theorem State.jump_i (s : State) (a : Word) :
    (s.jump a).i = s.i := rfl
@[simp] theorem State.jump_dt (s : State) (a : Word) :
    (s.jump a).dt = s.dt := rfl
@[simp] theorem State.jump_st (s : State) (a : Word) :
    (s.jump a).st = s.st := rfl
@[simp] theorem State.jump_stack (s : State) (a : Word) :
    (s.jump a).stack = s.stack := rfl
@[simp] theorem State.jump_depth (s : State) (a : Word) :
    (s.jump a).depth = s.depth := rfl
@[simp] theorem State.jump_mem (s : State) (a : Word) :
    (s.jump a).mem = s.mem := rfl
@[simp] theorem State.jump_fb (s : State) (a : Word) :
    (s.jump a).fb = s.fb := rfl
@[simp] theorem State.jump_keys (s : State) (a : Word) :
    (s.jump a).keys = s.keys := rfl
@[simp] theorem State.jump_run (s : State) (a : Word) :
    (s.jump a).run = s.run := rfl
@[simp] theorem State.jump_drawFlag (s : State) (a : Word) :
    (s.jump a).drawFlag = s.drawFlag := rfl
@[simp] theorem State.jump_events (s : State) (a : Word) :
    (s.jump a).events = s.events := rfl
@[simp] theorem State.jump_drawClip (s : State) (a : Word) :
    (s.jump a).drawClip = s.drawClip := rfl
@[simp] theorem State.jump_draws (s : State) (a : Word) :
    (s.jump a).draws = s.draws := rfl

/-! ### emit -/

@[simp] theorem State.emit_v (s : State) (e : Event) :
    (s.emit e).v = s.v := rfl
@[simp] theorem State.emit_pc (s : State) (e : Event) :
    (s.emit e).pc = s.pc := rfl
@[simp] theorem State.emit_i (s : State) (e : Event) :
    (s.emit e).i = s.i := rfl
@[simp] theorem State.emit_dt (s : State) (e : Event) :
    (s.emit e).dt = s.dt := rfl
@[simp] theorem State.emit_st (s : State) (e : Event) :
    (s.emit e).st = s.st := rfl
@[simp] theorem State.emit_stack (s : State) (e : Event) :
    (s.emit e).stack = s.stack := rfl
@[simp] theorem State.emit_depth (s : State) (e : Event) :
    (s.emit e).depth = s.depth := rfl
@[simp] theorem State.emit_mem (s : State) (e : Event) :
    (s.emit e).mem = s.mem := rfl
@[simp] theorem State.emit_fb (s : State) (e : Event) :
    (s.emit e).fb = s.fb := rfl
@[simp] theorem State.emit_keys (s : State) (e : Event) :
    (s.emit e).keys = s.keys := rfl
@[simp] theorem State.emit_run (s : State) (e : Event) :
    (s.emit e).run = s.run := rfl
@[simp] theorem State.emit_drawFlag (s : State) (e : Event) :
    (s.emit e).drawFlag = s.drawFlag := rfl
@[simp] theorem State.emit_events (s : State) (e : Event) :
    (s.emit e).events = if e ∈ s.events then s.events else e :: s.events := rfl
@[simp] theorem State.emit_drawClip (s : State) (e : Event) :
    (s.emit e).drawClip = s.drawClip := rfl
@[simp] theorem State.emit_draws (s : State) (e : Event) :
    (s.emit e).draws = s.draws := rfl

/-! ### afterFetch -/

@[simp] theorem State.afterFetch_v (s : State) :
    (s.afterFetch).v = s.v := rfl
@[simp] theorem State.afterFetch_pc (s : State) :
    (s.afterFetch).pc = advancedPc s.pc := rfl
@[simp] theorem State.afterFetch_i (s : State) :
    (s.afterFetch).i = s.i := rfl
@[simp] theorem State.afterFetch_dt (s : State) :
    (s.afterFetch).dt = s.dt := rfl
@[simp] theorem State.afterFetch_st (s : State) :
    (s.afterFetch).st = s.st := rfl
@[simp] theorem State.afterFetch_stack (s : State) :
    (s.afterFetch).stack = s.stack := rfl
@[simp] theorem State.afterFetch_depth (s : State) :
    (s.afterFetch).depth = s.depth := rfl
@[simp] theorem State.afterFetch_mem (s : State) :
    (s.afterFetch).mem = s.mem := rfl
@[simp] theorem State.afterFetch_fb (s : State) :
    (s.afterFetch).fb = s.fb := rfl
@[simp] theorem State.afterFetch_keys (s : State) :
    (s.afterFetch).keys = s.keys := rfl
@[simp] theorem State.afterFetch_run (s : State) :
    (s.afterFetch).run = s.run := rfl
@[simp] theorem State.afterFetch_drawFlag (s : State) :
    (s.afterFetch).drawFlag = s.drawFlag := rfl
@[simp] theorem State.afterFetch_events (s : State) :
    (s.afterFetch).events = [] := rfl
@[simp] theorem State.afterFetch_drawClip (s : State) :
    (s.afterFetch).drawClip = s.drawClip := rfl
@[simp] theorem State.afterFetch_draws (s : State) :
    (s.afterFetch).draws = s.draws := rfl

/-! ### endStep -/

@[simp] theorem State.endStep_v (s : State) (d : Bool) :
    (s.endStep d).v = s.v := rfl
@[simp] theorem State.endStep_pc (s : State) (d : Bool) :
    (s.endStep d).pc = s.pc := rfl
@[simp] theorem State.endStep_i (s : State) (d : Bool) :
    (s.endStep d).i = s.i := rfl
@[simp] theorem State.endStep_dt (s : State) (d : Bool) :
    (s.endStep d).dt = s.dt := rfl
@[simp] theorem State.endStep_st (s : State) (d : Bool) :
    (s.endStep d).st = s.st := rfl
@[simp] theorem State.endStep_stack (s : State) (d : Bool) :
    (s.endStep d).stack = s.stack := rfl
@[simp] theorem State.endStep_depth (s : State) (d : Bool) :
    (s.endStep d).depth = s.depth := rfl
@[simp] theorem State.endStep_mem (s : State) (d : Bool) :
    (s.endStep d).mem = s.mem := rfl
@[simp] theorem State.endStep_fb (s : State) (d : Bool) :
    (s.endStep d).fb = s.fb := rfl
@[simp] theorem State.endStep_keys (s : State) (d : Bool) :
    (s.endStep d).keys = Vector.replicate 16 false := rfl
@[simp] theorem State.endStep_run (s : State) (d : Bool) :
    (s.endStep d).run = s.run := rfl
@[simp] theorem State.endStep_drawFlag (s : State) (d : Bool) :
    (s.endStep d).drawFlag = d := rfl
@[simp] theorem State.endStep_events (s : State) (d : Bool) :
    (s.endStep d).events = s.events := rfl
@[simp] theorem State.endStep_drawClip (s : State) (d : Bool) :
    (s.endStep d).drawClip = s.drawClip := rfl
@[simp] theorem State.endStep_draws (s : State) (d : Bool) :
    (s.endStep d).draws = s.draws := rfl

/-! ### writeFlagThenResult -/

@[simp] theorem State.writeFlagThenResult_v (s : State) (x : Nibble) (f b : Byte) :
    (s.writeFlagThenResult x f b).v = (s.v.set vf f).set x b := rfl
@[simp] theorem State.writeFlagThenResult_pc (s : State) (x : Nibble) (f b : Byte) :
    (s.writeFlagThenResult x f b).pc = s.pc := rfl
@[simp] theorem State.writeFlagThenResult_i (s : State) (x : Nibble) (f b : Byte) :
    (s.writeFlagThenResult x f b).i = s.i := rfl
@[simp] theorem State.writeFlagThenResult_dt (s : State) (x : Nibble) (f b : Byte) :
    (s.writeFlagThenResult x f b).dt = s.dt := rfl
@[simp] theorem State.writeFlagThenResult_st (s : State) (x : Nibble) (f b : Byte) :
    (s.writeFlagThenResult x f b).st = s.st := rfl
@[simp] theorem State.writeFlagThenResult_stack (s : State) (x : Nibble) (f b : Byte) :
    (s.writeFlagThenResult x f b).stack = s.stack := rfl
@[simp] theorem State.writeFlagThenResult_depth (s : State) (x : Nibble) (f b : Byte) :
    (s.writeFlagThenResult x f b).depth = s.depth := rfl
@[simp] theorem State.writeFlagThenResult_mem (s : State) (x : Nibble) (f b : Byte) :
    (s.writeFlagThenResult x f b).mem = s.mem := rfl
@[simp] theorem State.writeFlagThenResult_fb (s : State) (x : Nibble) (f b : Byte) :
    (s.writeFlagThenResult x f b).fb = s.fb := rfl
@[simp] theorem State.writeFlagThenResult_keys (s : State) (x : Nibble) (f b : Byte) :
    (s.writeFlagThenResult x f b).keys = s.keys := rfl
@[simp] theorem State.writeFlagThenResult_run (s : State) (x : Nibble) (f b : Byte) :
    (s.writeFlagThenResult x f b).run = s.run := rfl
@[simp] theorem State.writeFlagThenResult_drawFlag (s : State) (x : Nibble) (f b : Byte) :
    (s.writeFlagThenResult x f b).drawFlag = s.drawFlag := rfl
@[simp] theorem State.writeFlagThenResult_events (s : State) (x : Nibble) (f b : Byte) :
    (s.writeFlagThenResult x f b).events = s.events := rfl
@[simp] theorem State.writeFlagThenResult_drawClip (s : State) (x : Nibble) (f b : Byte) :
    (s.writeFlagThenResult x f b).drawClip = s.drawClip := rfl
@[simp] theorem State.writeFlagThenResult_draws (s : State) (x : Nibble) (f b : Byte) :
    (s.writeFlagThenResult x f b).draws = s.draws := rfl

/-! ### skipIf -/

@[simp] theorem State.skipIf_v (s : State) (c : Bool) :
    (s.skipIf c).v = s.v := by unfold State.skipIf; split <;> rfl
@[simp] theorem State.skipIf_i (s : State) (c : Bool) :
    (s.skipIf c).i = s.i := by unfold State.skipIf; split <;> rfl
@[simp] theorem State.skipIf_dt (s : State) (c : Bool) :
    (s.skipIf c).dt = s.dt := by unfold State.skipIf; split <;> rfl
@[simp] theorem State.skipIf_st (s : State) (c : Bool) :
    (s.skipIf c).st = s.st := by unfold State.skipIf; split <;> rfl
@[simp] theorem State.skipIf_stack (s : State) (c : Bool) :
    (s.skipIf c).stack = s.stack := by unfold State.skipIf; split <;> rfl
@[simp] theorem State.skipIf_depth (s : State) (c : Bool) :
    (s.skipIf c).depth = s.depth := by unfold State.skipIf; split <;> rfl
@[simp] theorem State.skipIf_mem (s : State) (c : Bool) :
    (s.skipIf c).mem = s.mem := by unfold State.skipIf; split <;> rfl
@[simp] theorem State.skipIf_fb (s : State) (c : Bool) :
    (s.skipIf c).fb = s.fb := by unfold State.skipIf; split <;> rfl
@[simp] theorem State.skipIf_keys (s : State) (c : Bool) :
    (s.skipIf c).keys = s.keys := by unfold State.skipIf; split <;> rfl
@[simp] theorem State.skipIf_run (s : State) (c : Bool) :
    (s.skipIf c).run = s.run := by unfold State.skipIf; split <;> rfl
@[simp] theorem State.skipIf_drawFlag (s : State) (c : Bool) :
    (s.skipIf c).drawFlag = s.drawFlag := by unfold State.skipIf; split <;> rfl
@[simp] theorem State.skipIf_events (s : State) (c : Bool) :
    (s.skipIf c).events = s.events := by unfold State.skipIf; split <;> rfl
@[simp] theorem State.skipIf_drawClip (s : State) (c : Bool) :
    (s.skipIf c).drawClip = s.drawClip := by unfold State.skipIf; split <;> rfl
@[simp] theorem State.skipIf_draws (s : State) (c : Bool) :
    (s.skipIf c).draws = s.draws := by unfold State.skipIf; split <;> rfl

/-! ### push -/

@[simp] theorem State.push_v (s : State) (a : Word) :
    (s.push a).v = s.v := by unfold State.push; split <;> rfl
@[simp] theorem State.push_pc (s : State) (a : Word) :
    (s.push a).pc = s.pc := by unfold State.push; split <;> rfl
@[simp] theorem State.push_i (s : State) (a : Word) :
    (s.push a).i = s.i := by unfold State.push; split <;> rfl
@[simp] theorem State.push_dt (s : State) (a : Word) :
    (s.push a).dt = s.dt := by unfold State.push; split <;> rfl
@[simp] theorem State.push_st (s : State) (a : Word) :
    (s.push a).st = s.st := by unfold State.push; split <;> rfl
@[simp] theorem State.push_mem (s : State) (a : Word) :
    (s.push a).mem = s.mem := by unfold State.push; split <;> rfl
@[simp] theorem State.push_fb (s : State) (a : Word) :
    (s.push a).fb = s.fb := by unfold State.push; split <;> rfl
@[simp] theorem State.push_keys (s : State) (a : Word) :
    (s.push a).keys = s.keys := by unfold State.push; split <;> rfl
@[simp] theorem State.push_run (s : State) (a : Word) :
    (s.push a).run = s.run := by unfold State.push; split <;> rfl
@[simp] theorem State.push_drawFlag (s : State) (a : Word) :
    (s.push a).drawFlag = s.drawFlag := by unfold State.push; split <;> rfl
@[simp] theorem State.push_drawClip (s : State) (a : Word) :
    (s.push a).drawClip = s.drawClip := by unfold State.push; split <;> rfl
@[simp] theorem State.push_draws (s : State) (a : Word) :
    (s.push a).draws = s.draws := by unfold State.push; split <;> rfl

/-! ### popped -/

@[simp] theorem State.popped_v (s : State) :
    (s.popped).v = s.v := by unfold State.popped; split <;> rfl
@[simp] theorem State.popped_pc (s : State) :
    (s.popped).pc = s.pc := by unfold State.popped; split <;> rfl
@[simp] theorem State.popped_i (s : State) :
    (s.popped).i = s.i := by unfold State.popped; split <;> rfl
@[simp] theorem State.popped_dt (s : State) :
    (s.popped).dt = s.dt := by unfold State.popped; split <;> rfl
@[simp] theorem State.popped_st (s : State) :
    (s.popped).st = s.st := by unfold State.popped; split <;> rfl
@[simp] theorem State.popped_stack (s : State) :
    (s.popped).stack = s.stack := by unfold State.popped; split <;> rfl
@[simp] theorem State.popped_mem (s : State) :
    (s.popped).mem = s.mem := by unfold State.popped; split <;> rfl
@[simp] theorem State.popped_fb (s : State) :
    (s.popped).fb = s.fb := by unfold State.popped; split <;> rfl
@[simp] theorem State.popped_keys (s : State) :
    (s.popped).keys = s.keys := by unfold State.popped; split <;> rfl
@[simp] theorem State.popped_run (s : State) :
    (s.popped).run = s.run := by unfold State.popped; split <;> rfl
@[simp] theorem State.popped_drawFlag (s : State) :
    (s.popped).drawFlag = s.drawFlag := by unfold State.popped; split <;> rfl
@[simp] theorem State.popped_drawClip (s : State) :
    (s.popped).drawClip = s.drawClip := by unfold State.popped; split <;> rfl
@[simp] theorem State.popped_draws (s : State) :
    (s.popped).draws = s.draws := by unfold State.popped; split <;> rfl

@[simp] theorem State.skipIf_pc (s : State) (c : Bool) :
    (s.skipIf c).pc = if c then advancedPc s.pc else s.pc := by
  unfold State.skipIf; split <;> rfl

theorem State.push_of_lt {s : State} (a : Word) (h : s.depth.val < 16) :
    s.push a = { s with stack := s.stack.set s.depth.val a, depth := ⟨s.depth.val + 1, by omega⟩ } :=
  dif_pos h

theorem State.push_of_full {s : State} (a : Word) (h : ¬ s.depth.val < 16) :
    s.push a = s.emit .stackOverflow := dif_neg h

theorem State.popped_of_pos {s : State} (h : 0 < s.depth.val) :
    s.popped = { s with depth := ⟨s.depth.val - 1, by omega⟩ } := if_pos h

theorem State.popped_of_empty {s : State} (h : ¬ 0 < s.depth.val) :
    s.popped = s.emit .stackUnderflow := if_neg h

theorem State.popValue_of_pos {s : State} (h : 0 < s.depth.val) :
    s.popValue = s.stack[s.depth.val - 1]'(by omega) := dif_pos h

theorem State.popValue_of_empty {s : State} (h : ¬ 0 < s.depth.val) : s.popValue = 0x200 :=
  dif_neg h

/-! ### Registers and keys after an update -/

/-- A register reads the byte just written to it, and any other register what it held. -/
theorem State.reg_setReg (s : State) (x r : Nibble) (b : Byte) :
    (s.setReg x b).reg r = if r = x then b else s.reg r := by
  simp only [State.reg, State.setReg, Fin.getElem_fin, Vector.getElem_set, eq_comm (a := r),
    Fin.ext_iff]

@[simp] theorem State.reg_setReg_same (s : State) (x : Nibble) (b : Byte) :
    (s.setReg x b).reg x = b := by simp [State.reg_setReg]

@[simp] theorem State.reg_setReg_ne {s : State} {x r : Nibble} (b : Byte) (h : r ≠ x) :
    (s.setReg x b).reg r = s.reg r := by simp [State.reg_setReg, h]

/-- After the flag and then the result, V[x] is the result, VF the flag unless x = F, and every
other register is unchanged (R170). -/
theorem State.reg_writeFlagThenResult (s : State) (x r : Nibble) (f b : Byte) :
    (s.writeFlagThenResult x f b).reg r = if r = x then b else if r = vf then f else s.reg r := by
  simp [State.writeFlagThenResult, State.reg_setReg]

/-- A read of a register depends on the register file alone. -/
theorem State.reg_congr {s t : State} (h : t.v = s.v) (r : Nibble) : t.reg r = s.reg r := by
  simp [State.reg, h]

@[simp] theorem State.reg_afterFetch (s : State) (r : Nibble) : s.afterFetch.reg r = s.reg r := rfl
@[simp] theorem State.reg_endStep (s : State) (d : Bool) (r : Nibble) :
    (s.endStep d).reg r = s.reg r := rfl
@[simp] theorem State.reg_jump (s : State) (a : Word) (r : Nibble) : (s.jump a).reg r = s.reg r := rfl
@[simp] theorem State.reg_clearKeys (s : State) (r : Nibble) : s.clearKeys.reg r = s.reg r := rfl
@[simp] theorem State.reg_skipIf (s : State) (c : Bool) (r : Nibble) :
    (s.skipIf c).reg r = s.reg r := State.reg_congr (State.skipIf_v s c) r
@[simp] theorem State.reg_push (s : State) (a : Word) (r : Nibble) : (s.push a).reg r = s.reg r :=
  State.reg_congr (State.push_v s a) r
@[simp] theorem State.reg_popped (s : State) (r : Nibble) : s.popped.reg r = s.reg r :=
  State.reg_congr (State.popped_v s) r

@[simp] theorem State.key_afterFetch (s : State) (k : Nibble) : s.afterFetch.key k = s.key k := rfl

/-- No key is pressed after the clear. -/
@[simp] theorem State.key_clearKeys (s : State) (k : Nibble) : s.clearKeys.key k = false := by
  simp [State.key]

/-- No key is pressed after the end of a step (R128). -/
@[simp] theorem State.key_endStep (s : State) (d : Bool) (k : Nibble) :
    (s.endStep d).key k = false := by
  simp [State.key]

@[simp] theorem State.sp_afterFetch (s : State) : s.afterFetch.sp = s.sp := rfl
@[simp] theorem State.sp_endStep (s : State) (d : Bool) : (s.endStep d).sp = s.sp := rfl
@[simp] theorem State.sp_setReg (s : State) (x : Nibble) (b : Byte) : (s.setReg x b).sp = s.sp := rfl
@[simp] theorem State.sp_writeFlagThenResult (s : State) (x : Nibble) (f b : Byte) :
    (s.writeFlagThenResult x f b).sp = s.sp := rfl
@[simp] theorem State.sp_jump (s : State) (a : Word) : (s.jump a).sp = s.sp := rfl
@[simp] theorem State.sp_skipIf (s : State) (c : Bool) : (s.skipIf c).sp = s.sp := by
  cases c <;> rfl

/-! ### A block of registers -/

/-- A block load leaves everything but the register file as it was. -/
theorem setRegsFrom_eq_v (bs : List Byte) : ∀ (k : Nat) (s : State),
    setRegsFrom k bs s = { s with v := (setRegsFrom k bs s).v } := by
  induction bs with
  | nil => intro k s; rfl
  | cons b bs ih => intro k s; simp only [setRegsFrom]; rw [ih]

/-- The register a block load writes: byte `r - k` of the block, or what it held. -/
theorem reg_setRegsFrom (bs : List Byte) : ∀ (k : Nat) (s : State) (r : Nibble),
    (setRegsFrom k bs s).reg r =
      if k ≤ r.val then bs.getD (r.val - k) (s.reg r) else s.reg r := by
  induction bs with
  | nil => intro k s r; simp [setRegsFrom]
  | cons b bs ih =>
    intro k s r
    simp only [setRegsFrom]
    rw [ih]
    have hr : (State.reg { s with v := s.v.setIfInBounds k b } r)
        = if k = r.val then b else s.reg r := by
      simp only [State.reg, Fin.getElem_fin, Vector.getElem_setIfInBounds]
    rw [hr]
    rcases Nat.lt_trichotomy k r.val with h | h | h
    · have h1 : r.val - k = (r.val - (k + 1)) + 1 := by omega
      simp [show k + 1 ≤ r.val by omega, show k ≤ r.val by omega, show k ≠ r.val by omega, h1]
    · simp [h]
    · simp [show ¬ k + 1 ≤ r.val by omega, show ¬ k ≤ r.val by omega, show k ≠ r.val by omega]

/-- `V[0]` to `V[x]` has `x + 1` entries. -/
theorem length_regsUpTo (s : State) (x : Nibble) : (regsUpTo s x).length = x.val + 1 := by
  simp [regsUpTo]

/-- Entry `k` of `V[0]` to `V[x]` is `V[k]`. -/
theorem getElem_regsUpTo (s : State) (x k : Nibble)
    (hk : k.val < (regsUpTo s x).length) : (regsUpTo s x)[k.val] = s.reg k := by
  simp [regsUpTo, State.reg]

end Sys2Proof.Machine
end

