-- ==== Sys2Proof/Laws/Step.lean ====
section
/-! SUPPORT. What a step can do, said once: the two ends of an instruction (completed, or halted
after the fetch), one spec lemma per execute phase that can halt, and the cases of the fetch and
of `step`. -/

namespace Sys2Proof.Machine

/-! ### The frame of a step -/

/-- A halt after the fetch is the state R272 gives. -/
theorem haltAfterFetch_eq (why : HaltReason) (s : State) :
    haltAfterFetch why s = .next (haltedAfterFetch why s) := rfl

theorem runPlain_eq (effect : State → State) (s : State) :
    runPlain effect s = .next ((effect s.afterFetch).endStep false) := rfl

theorem runChecked_of_ok {d : Bool} {effect : State → Except HaltReason State} {s t : State}
    (h : effect s.afterFetch = .ok t) : runChecked d effect s = .next (t.endStep d) := by
  simp only [runChecked, h]

theorem runChecked_of_error {d : Bool} {effect : State → Except HaltReason State} {s : State}
    {why : HaltReason} (h : effect s.afterFetch = .error why) :
    runChecked d effect s = .next (haltedAfterFetch why s) := by
  simp only [runChecked, h, haltAfterFetch_eq]

/-- An instruction that may halt completes, or halts with the cause its execute phase gives. -/
theorem runChecked_cases {d : Bool} {effect : State → Except HaltReason State} {s t : State}
    (h : runChecked d effect s = .next t) :
    (∃ u, effect s.afterFetch = .ok u ∧ t = u.endStep d)
    ∨ ∃ why, effect s.afterFetch = .error why ∧ t = haltedAfterFetch why s := by
  cases e : effect s.afterFetch with
  | ok u =>
    rw [runChecked_of_ok e] at h
    exact .inl ⟨u, rfl, by injection h with h; exact h.symm⟩
  | error why =>
    rw [runChecked_of_error e] at h
    exact .inr ⟨why, rfl, by injection h with h; exact h.symm⟩

/-! ### The execute phases that can halt -/

/-- A store at I that fits changes memory alone, and memory only at the stored bytes. -/
theorem storeAtI_ok {bs : List Byte} {t : State} (hm : t.mem.wf = true)
    (h : t.i.toNat + bs.length ≤ Config.memSize) :
    ∃ m, storeAtI bs t = .ok { t with mem := m } ∧ m.wf = true
      ∧ ∀ c, m.read c = if t.i.toNat ≤ c then bs.getD (c - t.i.toNat) (t.mem.read c)
          else t.mem.read c := by
  obtain ⟨m, e, wf, hr⟩ := storeBytes_ok bs hm h
  exact ⟨m, by simp only [storeAtI, e], wf, hr⟩

/-- A store at I that does not fit halts with the first address outside memory (R274). -/
theorem storeAtI_halt {bs : List Byte} {t : State} (hb : bs ≠ [])
    (h : Config.memSize < t.i.toNat + bs.length) :
    storeAtI bs t = .error ⟨.memoryOutOfRange, firstOutside t.i.toNat⟩ := by
  simp only [storeAtI, storeBytes_halt bs hb h, firstOutside]

/-- A store at I answers with a new memory, canonical if the old one was, and nothing else changed,
or with the halt of the first address out of range. -/
theorem storeAtI_cases (bs : List Byte) (t : State) :
    (∃ m, storeAtI bs t = .ok { t with mem := m } ∧ (t.mem.wf = true → m.wf = true))
    ∨ (storeAtI bs t = .error ⟨.memoryOutOfRange, firstOutside t.i.toNat⟩
        ∧ Config.memSize < t.i.toNat + bs.length) := by
  have key : ∀ (bs : List Byte) (m : Memory) (a : Nat),
      (∃ m', storeBytes m a bs = .ok m' ∧ (m.wf = true → m'.wf = true))
      ∨ ∃ c, storeBytes m a bs = .error ⟨.memoryOutOfRange, c⟩
          ∧ Config.memSize ≤ c ∧ c < a + bs.length := by
    intro bs
    induction bs with
    | nil => exact fun m a => .inl ⟨m, rfl, id⟩
    | cons b bs ih =>
      intro m a
      by_cases ha : a < Config.memSize
      · simp only [storeBytes, memWrite_of_lt m b ha]
        rcases ih (m.write a b) (a + 1) with ⟨m', e, wf⟩ | ⟨c, e, h1, h2⟩
        · exact .inl ⟨m', e, fun hm => wf (Memory.write_wf b ha hm)⟩
        · exact .inr ⟨c, e, h1, by simp only [List.length_cons]; omega⟩
      · simp only [storeBytes, memWrite_of_ge m b ha]
        exact .inr ⟨a, rfl, by omega, by simp only [List.length_cons]; omega⟩
  rcases key bs t.mem t.i.toNat with ⟨m, e, wf⟩ | ⟨c, e, hc⟩
  · exact .inl ⟨m, by simp only [storeAtI, e], wf⟩
  · have hb : bs ≠ [] := by
      rintro rfl
      cases e
    exact .inr ⟨storeAtI_halt hb (by omega), by omega⟩

/-- A block load that fits writes registers alone. -/
theorem loadFromI_ok {n : Nat} {t : State} (h : n = 0 ∨ t.i.toNat + n ≤ Config.memSize) :
    loadFromI n t
      = .ok (setRegsFrom 0 ((List.range n).map fun k => t.mem.read (t.i.toNat + k)) t) := by
  simp only [loadFromI, loadBytes_ok t.mem n h]

/-- A block load that does not fit halts with the first address outside memory (R274). -/
theorem loadFromI_halt {n : Nat} {t : State} (hn : n ≠ 0)
    (h : Config.memSize < t.i.toNat + n) :
    loadFromI n t = .error ⟨.memoryOutOfRange, firstOutside t.i.toNat⟩ := by
  simp only [loadFromI, loadBytes_halt t.mem n hn h, firstOutside]

/-- The sprite bytes of a DRW that fits, drawn (R233). -/
theorem drawEffect_ok {x y n : Nibble} {t : State}
    (h : n.val = 0 ∨ t.i.toNat + n.val ≤ Config.memSize) :
    drawEffect x y n t =
      let c := drawRows t.drawClip (spriteColumn (t.reg x)) (spriteRow (t.reg y))
        ((List.range n.val).map fun k => t.mem.read (t.i.toNat + k)) ⟨t.fb, false⟩
      .ok { t.setReg vf (collisionFlag c.hit) with fb := c.frame } := by
  simp only [drawEffect, loadBytes_ok t.mem n.val h]

/-- A DRW whose sprite leaves memory halts with the first address outside it (R274). -/
theorem drawEffect_halt {x y n : Nibble} {t : State} (hn : n.val ≠ 0)
    (h : Config.memSize < t.i.toNat + n.val) :
    drawEffect x y n t = .error ⟨.memoryOutOfRange, firstOutside t.i.toNat⟩ := by
  simp only [drawEffect, loadBytes_halt t.mem n.val hn h, firstOutside]

/-- The pixels the DRW meets are those its sprite covers (R230, R231, R233). -/
theorem mem_spritePlots_iff_covers (s : State) (x y n : Nibble) (p : Nat) :
    p ∈ spritePlots s.drawClip (spriteColumn (s.reg x)) (spriteRow (s.reg y))
      ((List.range n.val).map fun k => s.mem.read (s.i.toNat + k)) ↔ spriteCovers s x y n p := by
  rw [mem_spritePlots]
  simp only [List.length_map, List.length_range, List.getElem_map, List.getElem_range, spriteBit,
    spriteColumn, spriteRow, spriteCovers]
  constructor
  · rintro ⟨row, col, h, h1, h2, h3, h4⟩; exact ⟨row, col, h, h1, h2, h3, h4⟩
  · rintro ⟨row, col, h, h1, h2, h3, h4⟩; exact ⟨row, col, h, h1, h2, h3, h4⟩

/-- A key skip on a register that names a key. -/
theorem skipOnKey_ok {x k : Nibble} {p : Bool} {t : State} (h : (t.reg x).toNat = k.val) :
    skipOnKey x p t = .ok (t.skipIf (t.key k == p)) := by
  have hk : (t.reg x).toNat < 16 := by omega
  have : (⟨(t.reg x).toNat, hk⟩ : Nibble) = k := Fin.ext h
  simp only [skipOnKey, keyIndex, dif_pos hk, this]

/-- A key skip on a register that names no key. -/
theorem skipOnKey_halt {x : Nibble} {p : Bool} {t : State} (h : 16 ≤ (t.reg x).toNat) :
    skipOnKey x p t = .error ⟨.keyIndexOutOfRange, (t.reg x).toNat⟩ := by
  simp only [skipOnKey, keyIndex, dif_neg (show ¬ (t.reg x).toNat < 16 by omega)]

/-! ### AdvancePC -/

/-- AdvancePC always lands in 0x200 to 0x1000 (R25, R124). -/
theorem advancedPc_range (pc : Word) :
    0x200 ≤ (advancedPc pc).toNat ∧ (advancedPc pc).toNat ≤ 0x1000 := by
  unfold advancedPc
  split
  · rw [BitVec.toNat_ofNat, Nat.mod_eq_of_lt (by omega)]
    omega
  · decide

/-! ### Fetch and step -/

/-- A fetch gives the big-endian word, or the halt of its first byte out of range. -/
theorem fetchWord_cases (s : State) :
    (s.pc.toNat + 1 < Config.memSize
      ∧ fetchWord s = .ok (wordOfBytes (s.mem.read s.pc.toNat) (s.mem.read (s.pc.toNat + 1))))
    ∨ (Config.memSize ≤ s.pc.toNat ∧ fetchWord s = .error ⟨.memoryOutOfRange, s.pc.toNat⟩)
    ∨ (s.pc.toNat + 1 = Config.memSize
      ∧ fetchWord s = .error ⟨.memoryOutOfRange, s.pc.toNat + 1⟩) := by
  by_cases h : s.pc.toNat < Config.memSize
  · by_cases h' : s.pc.toNat + 1 < Config.memSize
    · refine .inl ⟨h', ?_⟩
      simp only [fetchWord, memRead_of_lt s.mem h, memRead_of_lt s.mem h']
    · refine .inr (.inr ⟨by omega, ?_⟩)
      simp only [fetchWord, memRead_of_lt s.mem h, memRead_of_ge s.mem h']
  · refine .inr (.inl ⟨by omega, ?_⟩)
    simp only [fetchWord, memRead_of_ge s.mem h]

/-- A STEP that has a next state was RUNNING and halted in the fetch, halted in decode, or executed
the decoded instruction. -/
theorem step_cases {s t : State} (h : step s = .next t) : s.run = .running ∧
    ((∃ why, fetchWord s = .error why
        ∧ t = { s with events := [], drawFlag := false, run := .halted why s.pc })
    ∨ (∃ w e, fetchWord s = .ok w ∧ decodeWord w = .error e
        ∧ t = haltedAfterFetch ⟨.unknownInstruction, w.toNat⟩ s)
    ∨ ∃ w i, fetchWord s = .ok w ∧ decodeWord w = .ok i ∧ exec i s = .next t) := by
  unfold step at h
  split at h
  · cases h
  · cases h
  · rename_i hrun
    refine ⟨hrun, ?_⟩
    split at h
    · rename_i why hf
      refine .inl ⟨why, hf, ?_⟩
      injection h with h
      exact h.symm
    · rename_i w hf
      split at h
      · rename_i i hd
        exact .inr (.inr ⟨w, i, hf, hd, h⟩)
      · rename_i e hd
        refine .inr (.inl ⟨w, e, hf, hd, ?_⟩)
        injection h with h
        exact h.symm

theorem step_of_exec {s : State} {w : Word} {i : Instr} (hr : s.run = .running)
    (hf : fetchWord s = .ok w) (hd : decodeWord w = .ok i) : step s = exec i s := by
  simp only [step, hr, hf, hd]

/-! ### The instructions that can halt, inverted once each -/

/-- The address a block access reports is out of memory and is a 16-bit value: it is I itself, or
4096 (R69, R274). -/
theorem firstOutside_range (i : Word) :
    Config.memSize ≤ firstOutside i.toNat ∧ firstOutside i.toNat ≤ 0xFFFF := by
  have := i.isLt
  simp only [firstOutside, Config.memSize]
  omega

/-- A STEP of a BCD store or a block store completes with a new memory, or halts because its block
reaches out of memory. -/
theorem storeStep_cases {f : State → List Byte} {s t : State}
    (h : runChecked false (fun u => storeAtI (f u) u) s = .next t) :
    (∃ m, t = { s.afterFetch with mem := m }.endStep false ∧ (s.mem.wf = true → m.wf = true))
    ∨ (Config.memSize < s.i.toNat + (f s.afterFetch).length
      ∧ t = haltedAfterFetch ⟨.memoryOutOfRange, firstOutside s.i.toNat⟩ s) := by
  rcases runChecked_cases h with ⟨u, e, rfl⟩ | ⟨why, e, rfl⟩ <;>
    rcases storeAtI_cases (f s.afterFetch) s.afterFetch with ⟨m, e', wf⟩ | ⟨e', h2⟩ <;>
    rw [e'] at e <;> cases e
  · exact .inl ⟨m, rfl, wf⟩
  · exact .inr ⟨h2, rfl⟩

theorem execLdB_cases {x : Nibble} {s t : State} (h : execLdB x s = .next t) :
    (∃ m, t = { s.afterFetch with mem := m }.endStep false ∧ (s.mem.wf = true → m.wf = true))
    ∨ (Config.memSize < s.i.toNat + 3
      ∧ t = haltedAfterFetch ⟨.memoryOutOfRange, firstOutside s.i.toNat⟩ s) :=
  storeStep_cases (f := fun u => bcdDigits (u.reg x)) h

theorem execStoreRegs_cases {x : Nibble} {s t : State} (h : execStoreRegs x s = .next t) :
    (∃ m, t = { s.afterFetch with mem := m }.endStep false ∧ (s.mem.wf = true → m.wf = true))
    ∨ (Config.memSize < s.i.toNat + (x.val + 1)
      ∧ t = haltedAfterFetch ⟨.memoryOutOfRange, firstOutside s.i.toNat⟩ s) := by
  have c := storeStep_cases (f := fun u => regsUpTo u x) h
  rwa [length_regsUpTo] at c

theorem execLoadRegs_cases {x : Nibble} {s t : State} (h : execLoadRegs x s = .next t) :
    (∃ bs, bs.length = x.val + 1 ∧ t = (setRegsFrom 0 bs s.afterFetch).endStep false)
    ∨ (Config.memSize < s.i.toNat + (x.val + 1)
      ∧ t = haltedAfterFetch ⟨.memoryOutOfRange, firstOutside s.i.toNat⟩ s) := by
  by_cases hm : s.afterFetch.i.toNat + (x.val + 1) ≤ Config.memSize
  · have e := loadFromI_ok (n := x.val + 1) (.inr hm)
    cases (runChecked_of_ok (d := false) e).symm.trans h
    exact .inl ⟨_, by simp, rfl⟩
  · have e := loadFromI_halt (t := s.afterFetch) (Nat.succ_ne_zero x.val) (by omega)
    cases (runChecked_of_error (d := false) e).symm.trans h
    exact .inr ⟨Nat.lt_of_not_le hm, rfl⟩

theorem execDrw_cases {x y n : Nibble} {s t : State} (h : execDrw x y n s = .next t) :
    (∃ f hit, t = { s.afterFetch.setReg vf (collisionFlag hit) with fb := f }.endStep true)
    ∨ (n.val ≠ 0 ∧ Config.memSize < s.i.toNat + n.val
      ∧ t = haltedAfterFetch ⟨.memoryOutOfRange, firstOutside s.i.toNat⟩ s) := by
  by_cases hm : n.val = 0 ∨ s.afterFetch.i.toNat + n.val ≤ Config.memSize
  · have e := drawEffect_ok (x := x) (y := y) hm
    cases (runChecked_of_ok (d := true) e).symm.trans h
    exact .inl ⟨_, _, rfl⟩
  · have e := drawEffect_halt (x := x) (y := y) (n := n) (t := s.afterFetch) (by omega) (by omega)
    cases (runChecked_of_error (d := true) e).symm.trans h
    exact .inr ⟨fun h0 => hm (.inl h0), Nat.lt_of_not_le fun h1 => hm (.inr h1), rfl⟩

/-- A STEP of a key skip completes, skipping or not, or halts because V[x] names no key. -/
theorem keyStep_cases {x : Nibble} {p : Bool} {s t : State}
    (h : runChecked false (skipOnKey x p) s = .next t) :
    (∃ c, t = (s.afterFetch.skipIf c).endStep false)
    ∨ (16 ≤ (s.reg x).toNat
      ∧ t = haltedAfterFetch ⟨.keyIndexOutOfRange, (s.reg x).toNat⟩ s) := by
  rcases Nat.lt_or_ge (s.afterFetch.reg x).toNat 16 with hk | hk
  · have e := skipOnKey_ok (p := p) (k := ⟨_, hk⟩) (t := s.afterFetch) rfl
    rw [runChecked_of_ok e] at h
    injection h with h
    exact .inl ⟨_, h.symm⟩
  · rw [runChecked_of_error (skipOnKey_halt hk)] at h
    injection h with h
    exact .inr ⟨hk, h.symm⟩

/-- An executed instruction completes, with the keys released and draw_flag set by DRW alone, or
halts for one of the reasons of R271. -/
theorem exec_completes_or_halts (i : Instr) (s t : State) (h : exec i s = .next t) :
    ((t.run = s.run ∨ ∃ x, i = .ldVxK x ∧ t.run = .awaitKey x)
      ∧ (t.drawFlag = true ↔ ∃ x y n, i = .drw x y n)
      ∧ t.keys = Vector.replicate 16 false)
    ∨ ∃ why, t = haltedAfterFetch why s
      ∧ ((why.cause = .memoryOutOfRange ∧ why.info = firstOutside s.i.toNat
          ∧ ((∃ x y n, i = .drw x y n ∧ n.val ≠ 0 ∧ Config.memSize < s.i.toNat + n.val)
            ∨ (∃ x, i = .ldB x ∧ Config.memSize < s.i.toNat + 3)
            ∨ ∃ x, (i = .storeRegs x ∨ i = .loadRegs x)
              ∧ Config.memSize < s.i.toNat + (x.val + 1)))
        ∨ (why.cause = .keyIndexOutOfRange
          ∧ ∃ x, (i = .skp x ∨ i = .sknp x)
            ∧ 16 ≤ (s.reg x).toNat ∧ why.info = (s.reg x).toNat)) := by
  cases i with
  | drw x y n =>
    rcases execDrw_cases h with ⟨u, e, rfl⟩ | ⟨h0, h1, rfl⟩
    · left; simp
    · right; exact ⟨_, rfl, .inl ⟨rfl, rfl, .inl ⟨x, y, n, rfl, h0, h1⟩⟩⟩
  | ldB x =>
    rcases execLdB_cases h with ⟨u, rfl, _⟩ | ⟨h1, rfl⟩
    · left; simp
    · right; exact ⟨_, rfl, .inl ⟨rfl, rfl, .inr (.inl ⟨x, rfl, h1⟩)⟩⟩
  | storeRegs x =>
    rcases execStoreRegs_cases h with ⟨u, rfl, _⟩ | ⟨h1, rfl⟩
    · left; simp
    · right; exact ⟨_, rfl, .inl ⟨rfl, rfl, .inr (.inr ⟨x, .inl rfl, h1⟩)⟩⟩
  | loadRegs x =>
    rcases execLoadRegs_cases h with ⟨u, _, rfl⟩ | ⟨h1, rfl⟩
    · left; rw [setRegsFrom_eq_v]; simp
    · right; exact ⟨_, rfl, .inl ⟨rfl, rfl, .inr (.inr ⟨x, .inr rfl, h1⟩)⟩⟩
  | skp x =>
    rcases keyStep_cases h with ⟨u, rfl⟩ | ⟨c, rfl⟩
    · left; simp
    · right; exact ⟨_, rfl, .inr ⟨rfl, x, by simp, c, rfl⟩⟩
  | sknp x =>
    rcases keyStep_cases h with ⟨u, rfl⟩ | ⟨c, rfl⟩
    · left; simp
    · right; exact ⟨_, rfl, .inr ⟨rfl, x, by simp, c, rfl⟩⟩
  | _ =>
    cases h
    left
    simp

end Sys2Proof.Machine
end

