-- ==== Sys2Proof/Laws/Transactions.lean ====
section
/-! SUPPORT. What the transactions other than STEP do, one lemma per field of RESET and one per
transaction and run state, and that all of them keep memory canonical. -/

namespace Sys2Proof.Machine

/-! ### RESET -/

@[simp] theorem resetWith_v (p : Init) (s : State) :
    (resetWith p s).v = p.v := rfl
@[simp] theorem resetWith_pc (p : Init) (s : State) :
    (resetWith p s).pc = 0x200 := rfl
@[simp] theorem resetWith_i (p : Init) (s : State) :
    (resetWith p s).i = p.i := rfl
@[simp] theorem resetWith_dt (p : Init) (s : State) :
    (resetWith p s).dt = p.dt := rfl
@[simp] theorem resetWith_st (p : Init) (s : State) :
    (resetWith p s).st = p.st := rfl
@[simp] theorem resetWith_stack (p : Init) (s : State) :
    (resetWith p s).stack = p.stack := rfl
@[simp] theorem resetWith_depth (p : Init) (s : State) :
    (resetWith p s).depth = 0 := rfl
@[simp] theorem resetWith_mem (p : Init) (s : State) :
    (resetWith p s).mem = Memory.ofBytes p.memByte := by simp only [resetWith]
@[simp] theorem resetWith_fb (p : Init) (s : State) :
    (resetWith p s).fb = p.fb := rfl
@[simp] theorem resetWith_keys (p : Init) (s : State) :
    (resetWith p s).keys = p.keys := rfl
@[simp] theorem resetWith_run (p : Init) (s : State) :
    (resetWith p s).run = .running := rfl
@[simp] theorem resetWith_drawFlag (p : Init) (s : State) :
    (resetWith p s).drawFlag = false := rfl
@[simp] theorem resetWith_events (p : Init) (s : State) :
    (resetWith p s).events = [] := rfl
@[simp] theorem resetWith_drawClip (p : Init) (s : State) :
    (resetWith p s).drawClip = s.drawClip := rfl
@[simp] theorem resetWith_draws (p : Init) (s : State) :
    (resetWith p s).draws = s.draws := rfl

@[simp] theorem resetWith_sp (p : Init) (s : State) : (resetWith p s).sp = -1 := rfl

theorem resetWith_mem_wf (p : Init) (s : State) : (resetWith p s).mem.wf = true := by
  rw [resetWith_mem]
  exact Memory.ofBytes_wf p.memByte

/-- Memory after RESET reads as FONT and INIT say (R36, R300). -/
theorem resetWith_read (p : Init) (s : State) {a : Nat} (h : a < 4096) :
    (resetWith p s).mem.read a = p.memByte a := by
  rw [resetWith_mem, Memory.read_ofBytes, if_pos (show a < Config.memSize from h)]

/-- The reset state's memory is canonical. -/
theorem reset_mem_wf : State.reset.mem.wf = true := rfl

/-! ### LOAD_PROGRAM -/

theorem imageFits_iff (image : List Byte) : imageFits image = true ↔ image.length ≤ 3584 :=
  decide_eq_true_iff

theorem loadProgram_halted {image : List Byte} {s : State} (h : image.length ≤ 3584)
    (hs : s.isHalted = true) : loadProgram image s = .next s := by
  simp only [loadProgram, (imageFits_iff image).2 h, hs, if_true]

theorem loadProgram_tooLong {image : List Byte} {s : State} (h : 3584 < image.length) :
    loadProgram image s = .refused (.imageTooLong image.length) := by
  have : imageFits image = false := by
    rw [← Bool.not_eq_true, imageFits_iff]; omega
  simp [loadProgram, this]

/-- An image that fits is written verbatim from 0x200, and nothing else changes (R301). -/
theorem loadProgram_ok {image : List Byte} {s : State} (h : image.length ≤ 3584)
    (hs : s.isHalted = false) (hm : s.mem.wf = true) :
    ∃ m, loadProgram image s = .next { s with mem := m } ∧ m.wf = true
      ∧ ∀ a, m.read a
          = if 0x200 ≤ a then image.getD (a - 0x200) (s.mem.read a) else s.mem.read a := by
  obtain ⟨m, e, wf, hr⟩ := storeBytes_ok image (a := Config.progBase) hm
    (by simp only [Config.progBase, Config.memSize]; omega)
  refine ⟨m, ?_, wf, hr⟩
  simp [loadProgram, (imageFits_iff image).2 h, hs, e]

/-- LOAD_PROGRAM with a next state changes nothing but memory, and keeps it canonical. -/
theorem loadProgram_cases {image : List Byte} {s t : State} (h : loadProgram image s = .next t) :
    ∃ m, t = { s with mem := m } ∧ (s.mem.wf = true → m.wf = true) := by
  unfold loadProgram at h
  split at h
  · split at h
    · injection h with h
      exact ⟨s.mem, h.symm, id⟩
    · split at h
      · rename_i m hm
        injection h with h
        refine ⟨m, h.symm, fun wf => ?_⟩
        rcases storeBytes_cases image Config.progBase wf with ⟨m', e, wf'⟩ | ⟨c, e, -⟩ <;>
          rw [hm] at e <;> cases e
        exact wf'
      · cases h
  · cases h

/-! ### KEY_DOWN and TIMER_TICK -/

theorem keyDown_running {k : Nibble} {s : State} (h : s.run = .running) :
    keyDown k s = { s with keys := s.keys.set k true } := by simp only [keyDown, h]

theorem keyDown_awaitKey {k r : Nibble} {s : State} (h : s.run = .awaitKey r) :
    keyDown k s = { (s.setReg r (BitVec.ofNat 8 k.val)).clearKeys with run := .running } := by
  simp only [keyDown, h]

theorem keyDown_halted {k : Nibble} {s : State} {why : HaltReason} {a : Word}
    (h : s.run = .halted why a) : keyDown k s = s := by simp only [keyDown, h]

@[simp] theorem keyDown_mem (k : Nibble) (s : State) : (keyDown k s).mem = s.mem := by
  unfold keyDown; split <;> rfl

theorem tickTimer_toNat (t : Byte) : (tickTimer t).toNat = t.toNat - 1 := by
  unfold tickTimer
  split
  · rename_i h; subst h; rfl
  · bv_omega

theorem timerTick_running {s : State} (h : s.isHalted = false) :
    timerTick s = { s with dt := tickTimer s.dt, st := tickTimer s.st } := by
  simp [timerTick, h]

theorem timerTick_halted {s : State} (h : s.isHalted = true) : timerTick s = s := by
  simp [timerTick, h]

@[simp] theorem timerTick_mem (s : State) : (timerTick s).mem = s.mem := by
  unfold timerTick; split <;> rfl

/-! ### Sequences -/

theorem transactAll_cons {tr : Transaction} {ts : List Transaction} {s t : State}
    (h : transact tr s = .next t) : transactAll (tr :: ts) s = transactAll ts t := by
  simp only [transactAll, h]

theorem transactAll_append {ts us : List Transaction} {s t : State}
    (h : transactAll ts s = .next t) : transactAll (ts ++ us) s = transactAll us t := by
  induction ts generalizing s with
  | nil => cases h; rfl
  | cons tr ts ih =>
    simp only [List.cons_append, transactAll] at h ⊢
    split at h
    · exact ih h
    · cases h
    · cases h

end Sys2Proof.Machine
end

