-- ==== Sys2Proof/Tests/Slice0.lean ====
section
/-! SUPPORT. Small tests. Expected values are those of spec/95_test_vectors.md (the vector is named
as L1.n or L2.n#row) or are written out by hand from the rule named; none is the model's own
answer. The last part shows, for every statement with hypotheses, states and operands that meet
them, at the ends of their ranges. -/

open Sys2Proof Sys2Proof.Machine

namespace Sys2Proof.Tests

/-- The reset state with the word `w` at 0x200. -/
def start (w : Nat) : State := State.reset.withFetchWord 16 w

/-- `start w` with V[x] set. -/
def start1 (w : Nat) (x : Nibble) (b : Byte) : State := (start w).setReg x b

/-- `start w` with V[x] and V[y] set. -/
def start2 (w : Nat) (x : Nibble) (b : Byte) (y : Nibble) (c : Byte) : State :=
  ((start w).setReg x b).setReg y c

/-- The state with `b` at address `a`. -/
def poke (a : Nat) (b : Byte) (s : State) : State := { s with mem := s.mem.write a b }

/-- The state with I = 0x300 and one lit pixel. -/
def lit (p : Nat) (s : State) : State := { s with i := 0x300, fb := Frame.blank.toggle p }

/-- What `f` reads after one STEP. -/
def after (s : State) (f : State → α) : Option α := (nextState (step s)).map f

/-! ### WellFormed: ill-formed words and images are refused -/

theorem test_wf_refuses_family_0 :
    [0x0000, 0x0123, 0x00E1, 0x00EF, 0x0FFF].all (fun w => !legalWord w) = true := by decide

theorem test_wf_refuses_families_5_and_9 :
    [0x5121, 0x512F, 0x9121].all (fun w => !legalWord w) = true := by decide

theorem test_wf_refuses_family_8 :
    [0x8128, 0x8129, 0x812A, 0x812B, 0x812C, 0x812D, 0x812F].all (fun w => !legalWord w)
      = true := by decide

theorem test_wf_refuses_families_E_and_F :
    [0xE39F, 0xE3A2, 0xE300, 0xF300, 0xF308, 0xF31F, 0xF356, 0xF366, 0xF3FF].all
      (fun w => !legalWord w) = true := by decide

theorem test_wf_accepts :
    [0x00E0, 0x00EE, 0x5120, 0x812E, 0x8126, 0x9120, 0xE39E, 0xE3A1, 0xF307, 0xF30A, 0xF315,
      0xF318, 0xF31E, 0xF329, 0xF333, 0xF355, 0xF365].all legalWord = true := by decide

theorem test_wf_refuses_image_of_3585_bytes :
    imageFits (List.replicate 3585 0) = false := by
  rw [← Bool.not_eq_true, imageFits_iff, List.length_replicate]
  omega

theorem test_wf_takes_image_of_3584_bytes :
    imageFits (List.replicate 3584 0) = true := by
  rw [imageFits_iff, List.length_replicate]

/-! ### Decoding: one word per constructor, bit by bit from R94 -/

theorem test_decode_0_to_7 :
    decodeWord 0b0000000011100000 = .ok .cls
    ∧ decodeWord 0b0000000011101110 = .ok .ret
    ∧ decodeWord 0b0001001000110100 = .ok (.jp 0x234)
    ∧ decodeWord 0b0010101111001101 = .ok (.call 0xBCD)
    ∧ decodeWord 0b0011001101000010 = .ok (.seImm 3 0x42)
    ∧ decodeWord 0b0100010110000001 = .ok (.sneImm 5 0x81)
    ∧ decodeWord 0b0101000100100000 = .ok (.seReg 1 2)
    ∧ decodeWord 0b0110101000101011 = .ok (.ldImm 10 0x2B)
    ∧ decodeWord 0b0111000111111111 = .ok (.addImm 1 0xFF) := by decide

theorem test_decode_8 :
    decodeWord 0b1000000100100000 = .ok (.ldReg 1 2)
    ∧ decodeWord 0b1000001101000001 = .ok (.orReg 3 4)
    ∧ decodeWord 0b1000010101100010 = .ok (.andReg 5 6)
    ∧ decodeWord 0b1000011110000011 = .ok (.xorReg 7 8)
    ∧ decodeWord 0b1000100110100100 = .ok (.addReg 9 10)
    ∧ decodeWord 0b1000101111000101 = .ok (.subReg 11 12)
    ∧ decodeWord 0b1000000111110110 = .ok (.shr 1)
    ∧ decodeWord 0b1000110111100111 = .ok (.subnReg 13 14)
    ∧ decodeWord 0b1000111100001110 = .ok (.shl 15) := by decide

theorem test_decode_9_to_E :
    decodeWord 0b1001000111110000 = .ok (.sneReg 1 15)
    ∧ decodeWord 0b1010000100100011 = .ok (.ldI 0x123)
    ∧ decodeWord 0b1011001100000000 = .ok (.jpV0 0x300)
    ∧ decodeWord 0b1100000100001111 = .ok (.rnd 1 0x0F)
    ∧ decodeWord 0b1101000100101111 = .ok (.drw 1 2 15)
    ∧ decodeWord 0b1110010110011110 = .ok (.skp 5)
    ∧ decodeWord 0b1110010110100001 = .ok (.sknp 5) := by decide

theorem test_decode_F :
    decodeWord 0b1111001100000111 = .ok (.ldVxDt 3)
    ∧ decodeWord 0b1111001100001010 = .ok (.ldVxK 3)
    ∧ decodeWord 0b1111001100010101 = .ok (.ldDtVx 3)
    ∧ decodeWord 0b1111001100011000 = .ok (.ldStVx 3)
    ∧ decodeWord 0b1111111100011110 = .ok (.addI 15)
    ∧ decodeWord 0b1111010000101001 = .ok (.ldF 4)
    ∧ decodeWord 0b1111001100110011 = .ok (.ldB 3)
    ∧ decodeWord 0b1111111101010101 = .ok (.storeRegs 15)
    ∧ decodeWord 0b1111001001100101 = .ok (.loadRegs 2) := by decide

/-- The high byte comes first (R66), and fewer than two bytes hold no instruction (R90). -/
theorem test_decode_bytes :
    decodeBytes [0x12, 0x34, 0x56] = .ok (.jp 0x234, [0x56])
    ∧ decodeBytes [0x12] = .error .truncated
    ∧ decodeTableWord 16 0xD12F = some (.drw 1 2 15)
    ∧ decodeTableWord 16 0x5121 = none := by decide

/-- The word for the next STEP stands at PC, high byte first. -/
theorem test_withFetchWord :
    fetchWord (start 0x6A2B) = .ok 0x6A2B ∧ (start 0x6A2B).mem.read 0x200 = 0x6A
    ∧ (start 0x6A2B).pc = 0x200 := by decide

/-! ### The engine -/

/-- L2.1#8, L2.10. -/
theorem test_illegal_word_halts :
    after (start 0x0000) (fun t => (t.run, t.pc, t.drawFlag))
      = some (.halted ⟨.unknownInstruction, 0⟩ 0x200, 0x202, false) := by decide

/-- L2.1#4 and L2.1#5. -/
theorem test_fetch_halts :
    after { start 0x6001 with pc := 0x1000 } (fun t => (t.run, t.pc))
      = some (.halted ⟨.memoryOutOfRange, 0x1000⟩ 0x1000, 0x1000)
    ∧ after (poke 0xFFF 0x60 { start 0x6001 with pc := 0xFFF }) (fun t => (t.run, t.pc))
      = some (.halted ⟨.memoryOutOfRange, 0x1000⟩ 0xFFF, 0xFFF) := by decide

/-- L2.1#6 and L2.1#3: the advance below 0x200, and from 0xFFE. -/
theorem test_advance :
    after (poke 0x100 0x60 (poke 0x101 0x01 { start 0 with pc := 0x100 }))
      (fun t => (t.reg 0, t.pc)) = some (0x01, 0x200)
    ∧ after (poke 0xFFE 0x60 (poke 0xFFF 0x01 { start 0 with pc := 0xFFE }))
      (fun t => (t.reg 0, t.pc)) = some (0x01, 0x1000) := by decide

/-- L2.1#10: the keys are cleared by a step. -/
theorem test_keys_cleared :
    after (keyDown 3 (start 0x6000)) (fun t => t.key 3) = some false := by decide

/-! ### Control transfer -/

/-- L2.2#1. -/
theorem test_jp : after (start 0x1234) (·.pc) = some 0x234 := by decide

/-- L2.2#4 and L2.2#5. -/
theorem test_call :
    after (start 0x2300) (fun t => (t.pc, t.sp, t.stack[0])) = some (0x300, 0, 0x202)
    ∧ after { start 0x2300 with depth := 16 } (fun t => (t.pc, t.sp, t.events))
      = some (0x300, 15, [.stackOverflow]) := by decide

/-- L2.2#8 and L2.2#9. -/
theorem test_ret :
    after { start 0x00EE with depth := 1, stack := (Vector.replicate 16 0).set 0 0x20A }
      (fun t => (t.pc, t.sp)) = some (0x20A, -1)
    ∧ after (start 0x00EE) (fun t => (t.pc, t.sp, t.events))
      = some (0x200, -1, [.stackUnderflow]) := by decide

/-- L2.2#10, L2.2#11 and L2.2#12, L2.2#13. -/
theorem test_skip_imm :
    after (start1 0x3342 3 0x42) (·.pc) = some 0x204
    ∧ after (start1 0x3342 3 0x41) (·.pc) = some 0x202
    ∧ after (start1 0x4342 3 0x41) (·.pc) = some 0x204
    ∧ after (start1 0x4342 3 0x42) (·.pc) = some 0x202 := by decide

/-- L2.2#17, L2.2#18 and L2.2#20, L2.2#21. -/
theorem test_skip_reg :
    after (start2 0x5120 1 7 2 7) (·.pc) = some 0x204
    ∧ after (start2 0x5120 1 7 2 8) (·.pc) = some 0x202
    ∧ after (start2 0x9120 1 7 2 8) (·.pc) = some 0x204
    ∧ after (start1 0x9110 1 7) (·.pc) = some 0x202 := by decide

/-- L2.2#25 and L2.2#26: no masking, and V0 alone is the offset. -/
theorem test_jpV0 :
    after (start1 0xBFFF 0 0xFF) (·.pc) = some 0x10FE
    ∧ after (start2 0xB300 0 0x01 15 0x50) (·.pc) = some 0x301 := by decide

/-! ### Register loads and the ALU -/

/-- L2.3#1 and L2.3#4. -/
theorem test_imm :
    after (start 0x6A2B) (·.reg 10) = some 0x2B
    ∧ after (start2 0x7101 1 0xFF 15 0x33) (fun t => (t.reg 1, t.reg 15))
      = some (0x00, 0x33) := by decide

/-- L2.4#1 to L2.4#4. -/
theorem test_copy_and_logic :
    after (start1 0x8120 2 0x99) (·.reg 1) = some 0x99
    ∧ after ((start2 0x8121 1 0x0F 2 0x30).setReg 15 0x77) (fun t => (t.reg 1, t.reg 15))
      = some (0x3F, 0x77)
    ∧ after (start2 0x8122 1 0x3C 2 0x0F) (·.reg 1) = some 0x0C
    ∧ after (start2 0x8123 1 0x3C 2 0x0F) (·.reg 1) = some 0x33 := by decide

/-- L1.1 and L2.4#7. -/
theorem test_add :
    after (start2 0x8124 1 0xC8 2 0x64) (fun t => (t.reg 1, t.reg 15)) = some (0x2C, 1)
    ∧ after (start2 0x8F14 15 0x10 1 0xF5) (·.reg 15) = some 0x05 := by decide

/-- L1.2 (equal operands borrow) and L2.4#9. -/
theorem test_sub :
    after (start2 0x8125 1 7 2 7) (fun t => (t.reg 1, t.reg 15)) = some (0x00, 0)
    ∧ after (start2 0x81F5 1 0x03 15 0x05) (fun t => (t.reg 1, t.reg 15)) = some (0xFE, 0) := by
  decide

/-- L2.4#16 and L2.4#20. -/
theorem test_subn :
    after (start2 0x8127 1 3 2 5) (fun t => (t.reg 1, t.reg 15)) = some (0x02, 1)
    ∧ after (start2 0x8F17 15 0x03 1 0x05) (·.reg 15) = some 0x02 := by decide

/-- L2.4#14 and L2.4#15. -/
theorem test_shr :
    after (start1 0x81F6 1 0xFF) (fun t => (t.reg 1, t.reg 15)) = some (0x7F, 1)
    ∧ after (start1 0x8F06 15 0x03) (·.reg 15) = some 0x01 := by decide

/-- L2.4#22 and L2.4#23. -/
theorem test_shl :
    after (start1 0x810E 1 0x7F) (fun t => (t.reg 1, t.reg 15)) = some (0xFE, 0)
    ∧ after (start1 0x8F0E 15 0x81) (·.reg 15) = some 0x02 := by decide

/-- L2.5#4: the draw is free, and the next draw is another one. -/
theorem test_rnd :
    after (start 0xC1F0) (fun t => (t.reg 1, t.draws))
      = some (Config.freeByte 0 &&& 0xF0, 1) := rfl

/-! ### The index register and memory -/

/-- L2.6#1, L2.6#4 and L2.6#5. -/
theorem test_index :
    after (start 0xA123) (·.i) = some 0x123
    ∧ after { start2 0xF21E 2 0x01 15 0x09 with i := 0xFFFF } (fun t => (t.i, t.reg 15))
      = some (0x0000, 0x09)
    ∧ after { start1 0xFF1E 15 0x05 with i := 0x300 } (·.i) = some 0x305 := by decide

/-- L1.12 and L2.6#6. -/
theorem test_glyph :
    after { start1 0xF429 4 0x10 with i := 0x123 } (·.i) = some 0x123
    ∧ after (start1 0xF429 4 0x0A) (·.i) = some 0x032 := by decide

/-- L1.7 and L2.6#13. -/
theorem test_bcd :
    after { start1 0xF333 3 157 with i := 0x300 }
      (fun t => (t.mem.read 0x300, t.mem.read 0x301, t.mem.read 0x302, t.i))
      = some (1, 5, 7, 0x300)
    ∧ after { start1 0xF333 3 0x64 with i := 0xFFE } (fun t => (t.run, t.mem.read 0xFFE))
      = some (.halted ⟨.memoryOutOfRange, 0x1000⟩ 0x200, 0) := by decide

/-- L2.6#14, L2.6#16 and L2.6#17. -/
theorem test_store_regs :
    after { start2 0xF155 0 1 1 2 with i := 0x300 }
      (fun t => (t.mem.read 0x300, t.mem.read 0x301, t.mem.read 0x302, t.i))
      = some (1, 2, 0, 0x300)
    ∧ after { start1 0xF055 0 0xAA with i := 0x000 } (·.mem.read 0) = some 0xAA
    ∧ after { start2 0xF255 0 1 1 2 with i := 0xFFE } (fun t => (t.run, t.mem.read 0xFFE))
      = some (.halted ⟨.memoryOutOfRange, 0x1000⟩ 0x200, 0) := by decide

/-- L2.6#18 and L2.6#20. -/
theorem test_load_regs :
    after (poke 0x300 1 (poke 0x301 5 (poke 0x302 7 { start 0xF265 with i := 0x300 })))
      (fun t => (t.reg 0, t.reg 1, t.reg 2, t.i)) = some (1, 5, 7, 0x300)
    ∧ after (poke 0xFFF 0x99 { start2 0xF165 0 0x11 1 0x22 with i := 0xFFF })
      (fun t => (t.reg 0, t.run)) = some (0x11, .halted ⟨.memoryOutOfRange, 0x1000⟩ 0x200) := by
  decide

/-! ### The framebuffer -/

/-- L2.7#1. -/
theorem test_cls :
    after { start1 0x00E0 15 0x44 with fb := Vector.replicate 32 0x5 }
      (fun t => (t.fb.pixel 0, t.reg 15, t.drawFlag)) = some (false, 0x44, false) := by decide

/-- L2.7#3 and L2.7#7: bit 0 is column 7; the coordinates are read before VF is reset. -/
theorem test_drw :
    after (poke 0x300 0x01 { start 0xD011 with i := 0x300 })
      (fun t => (t.fb.pixel 7, t.fb.pixel 0, t.reg 15, t.drawFlag)) = some (true, false, 0, true)
    ∧ after (poke 0x300 0x80 (lit 10 (start1 0xDF11 15 10)))
      (fun t => (t.fb.pixel 10, t.reg 15)) = some (false, 1) := by decide

/-- L2.8#4: the two values of DRAW_CLIP. -/
theorem test_drw_clip :
    after (poke 0x300 0xFF (lit 64 (start1 0xD011 0 63)))
      (fun t => (t.fb.pixel 63, t.fb.pixel 64, t.fb.pixel 70, t.reg 15))
      = some (true, false, true, 1)
    ∧ after (poke 0x300 0xFF { lit 64 (start1 0xD011 0 63) with drawClip := .axis })
      (fun t => (t.fb.pixel 63, t.fb.pixel 64, t.fb.pixel 70, t.reg 15))
      = some (true, true, false, 0) := by decide

/-! ### Keys and timers -/

/-- L2.9#1, L2.9#2 and L2.9#6. -/
theorem test_skp :
    after (keyDown 7 (start1 0xE59E 5 7)) (fun t => (t.pc, t.key 7)) = some (0x204, false)
    ∧ after (start1 0xE59E 5 7) (·.pc) = some 0x202
    ∧ after (start1 0xE59E 5 0x10) (fun t => (t.run, t.pc))
      = some (.halted ⟨.keyIndexOutOfRange, 0x10⟩ 0x200, 0x202) := by decide

/-- L2.9#3 and L2.9#4. -/
theorem test_sknp :
    after (start1 0xE5A1 5 7) (·.pc) = some 0x204
    ∧ after (keyDown 7 (start1 0xE5A1 5 7)) (·.pc) = some 0x202 := by decide

/-- L2.9#8, L2.9#9 and L2.9#10. -/
theorem test_timers :
    after { start 0xF307 with dt := 0x3C } (·.reg 3) = some 0x3C
    ∧ after (start1 0xF315 3 0x3C) (fun t => (timerTick (timerTick t)).dt) = some 0x3A
    ∧ after (start1 0xF318 3 0x05) (fun t => (t.st, t.soundOn)) = some (0x05, true) := by decide

/-- L2.9#11: a timer does not wrap. -/
theorem test_tick :
    (fun t => (t.dt, t.st, t.soundOn)) (timerTick { start 0 with st := 1 })
      = (0, 0, false) := by decide

/-- L2.9#12, L2.9#15 and L2.9#16. -/
theorem test_wait_for_key :
    after (start 0xF30A) (fun t => (t.run, t.pc)) = some (.awaitKey 3, 0x202)
    ∧ after (start 0xF30A) (fun t => ((keyDown 0xB t).reg 3, (keyDown 0xB t).run))
      = some (0x0B, .running)
    ∧ after (start 0xF30A) (fun t => (keyDown 0xB (keyDown 0xB t)).key 0xB) = some true := by decide

/-! ### The other transactions -/

/-- L2.11#1: RESET of a halted state, with the default font. -/
theorem test_reset :
    (fun t => (t.pc, t.sp, t.run))
      (resetWith Init.clean { start 0 with run := .halted ⟨.unknownInstruction, 0⟩ 0x200 })
      = (0x200, -1, .running)
    ∧ (List.range 5).map State.reset.mem.read = [0xF0, 0x90, 0x90, 0x90, 0xF0] := by decide

/-- L1.6: load, then fetch. -/
theorem test_load_then_step :
    (match transactAll [.loadProgram [0x12, 0x34], .step] State.reset with
      | .next t => some t.pc
      | _ => none) = some 0x234 := by decide

/-! ### Witnesses: the hypotheses of the statements are met -/

/-- The state halted on the word 0. -/
def haltedState : State := { start 0 with run := .halted ⟨.unknownInstruction, 0⟩ 0x200 }

/-- The state waiting for a key for V3. -/
def waitingState : State := { start 0 with run := .awaitKey 3 }

theorem witness_DecoderAcceptsExactlyTheOpcodeMap :
    legalWord 0x00E0 = true ∧ legalWord 0xFFFF = false ∧ legalWord 0x0000 = false
    ∧ ∃ r ∈ opcodeTable, r.hits 0xD000 = true := by decide

theorem witness_OnlyTheShiftsHaveDontCareBits :
    decodeWord 0x8106 = .ok (.shr 1) ∧ decodeWord 0x81F6 = .ok (.shr 1)
    ∧ decodeWord 0x810E = .ok (.shl 1) ∧ decodeWord 0x81FE = .ok (.shl 1) := by decide

theorem witness_StepRunsTheDecodedInstruction :
    (start 0x6A2B).run = .running ∧ (start 0x6A2B).pc.toNat + 1 < 4096
    ∧ decodeWord (BitVec.ofNat 16 (((start 0x6A2B).mem.read 0x200).toNat * 256
        + ((start 0x6A2B).mem.read 0x201).toNat)) = .ok (.ldImm 10 0x2B) := by decide

/-- The highest PC whose word is inside memory, 0xFFE. -/
theorem witness_StepRunsTheDecodedInstruction_at_the_end :
    let s := poke 0xFFE 0x60 { start 0 with pc := 0xFFE }
    s.run = .running ∧ s.pc.toNat + 1 < 4096
    ∧ decodeWord (BitVec.ofNat 16 ((s.mem.read s.pc.toNat).toNat * 256
        + (s.mem.read (s.pc.toNat + 1)).toNat)) = .ok (.ldImm 0 0) := by decide

theorem witness_FetchOutsideMemoryHaltsWithPcKept :
    { start 0 with pc := 0x1000 }.run = .running ∧ 4096 ≤ (0x1000 : Word).toNat
    ∧ 4096 ≤ (0xFFFF : Word).toNat ∧ { start 0 with pc := 0xFFF }.pc = 0xFFF
    ∧ ¬ 4096 ≤ (0xFFF : Word).toNat := by decide

theorem witness_IllegalWordHaltsTheStep :
    (start 0x5121).run = .running ∧ (start 0x5121).pc.toNat + 1 < 4096
    ∧ (0x5121 : Word).toNat = ((start 0x5121).mem.read 0x200).toNat * 256
        + ((start 0x5121).mem.read 0x201).toNat
    ∧ legalWord 0x5121 = false := by decide

theorem witness_StepHasNoTransitionWhileWaitingOrHalted :
    waitingState.run = .awaitKey 3
    ∧ haltedState.run = .halted ⟨.unknownInstruction, 0⟩ 0x200 := by decide

theorem witness_AdvancePcAddsTwoInsideTheProgramRegion :
    (0x200 ≤ (0x200 : Word).toNat ∧ (0xFFE : Word).toNat < 0xFFF)
    ∧ (0x1FF : Word).toNat < 0x200 ∧ 0xFFF ≤ (0xFFF : Word).toNat := by decide

/-- A halt of each kind: in the fetch, in decode, in the execute phase. -/
theorem witness_HaltLeavesTheStateAsTheFetchLeftIt :
    after { start 0 with pc := 0xFFF } (·.run) = some (.halted ⟨.memoryOutOfRange, 0x1000⟩ 0xFFF)
    ∧ after (start 0xF3FF) (·.run) = some (.halted ⟨.unknownInstruction, 0xF3FF⟩ 0x200)
    ∧ after { start 0xD012 with i := 0xFFF } (·.run)
      = some (.halted ⟨.memoryOutOfRange, 0x1000⟩ 0x200) := by decide

/-- A draw, a step that draws nothing, and a halt with a key held down. -/
theorem witness_CompletedStepReleasesKeysAndFlagsDraws :
    fetchWord (start 0xD010) = .ok 0xD010 ∧ decodeWord 0xD010 = .ok (.drw 0 1 0)
    ∧ after (start 0xD010) (fun t => (t.isHalted, t.drawFlag)) = some (false, true)
    ∧ after (start 0x6000) (fun t => (t.isHalted, t.drawFlag)) = some (false, false)
    ∧ after (keyDown 4 (start1 0xE59E 5 0xFF)) (fun t => (t.isHalted, t.key 4))
      = some (true, true) := by decide

theorem witness_EventsHoldWhatTheLastStepRaised :
    after { start 0x2300 with depth := 16 } (·.events) = some [.stackOverflow]
    ∧ after (start 0x00EE) (·.events) = some [.stackUnderflow]
    ∧ after { start 0x2300 with depth := 15, events := [.stackUnderflow] } (·.events)
      = some [] := by decide

theorem witness_OnlyTheListedConditionsHalt :
    after (start 0x0123) (·.run) = some (.halted ⟨.unknownInstruction, 0x0123⟩ 0x200)
    ∧ after { start 0xF065 with i := 0xFFFF } (·.run)
      = some (.halted ⟨.memoryOutOfRange, 0xFFFF⟩ 0x200)
    ∧ after (start1 0xE0A1 0 16) (·.run)
      = some (.halted ⟨.keyIndexOutOfRange, 16⟩ 0x200) := by decide

/-- One byte beyond memory halts each block access; one byte less, or DRW with n = 0, does not. -/
theorem witness_OnlyTheListedConditionsHalt_block_accesses :
    [(0xD012, 0xFFF), (0xF033, 0xFFE), (0xF155, 0xFFF), (0xF165, 0xFFF)].map
      (fun (w, i) => after { start w with i := i } (·.run))
      = List.replicate 4 (some (.halted ⟨.memoryOutOfRange, 0x1000⟩ 0x200))
    ∧ [(0xD011, 0xFFF), (0xF033, 0xFFD), (0xF155, 0xFFE), (0xF165, 0xFFE), (0xD010, 0xFFFF)].map
      (fun (w, i) => after { start w with i := i } (·.run))
      = List.replicate 5 (some .running) := by decide

/-- Both fetch halts, at 0xFFF and at 4096. -/
theorem witness_OnlyTheListedConditionsHalt_fetch :
    fetchWord { start 0 with pc := 0xFFF } = .error ⟨.memoryOutOfRange, 0x1000⟩
    ∧ fetchWord { start 0 with pc := 0x1000 } = .error ⟨.memoryOutOfRange, 0x1000⟩
    ∧ fetchWord { start 0 with pc := 0x10FE } = .error ⟨.memoryOutOfRange, 0x10FE⟩ := by decide

/-- Each unit does change under one of its instructions. -/
theorem witness_EachUnitIsWrittenOnlyByItsInstructions :
    (nextState (exec (.ldI 1) (start 0))).map (·.i) = some 1
    ∧ (nextState (exec (.ldDtVx 3) (start1 0 3 9))).map (·.dt) = some 9
    ∧ (nextState (exec (.call 0) (start 0))).map (·.sp) = some 0
    ∧ (nextState (exec .cls (lit 3 (start 0)))).map (·.fb.pixel 3) = some false
    ∧ (nextState (exec (.ldB 3) (start1 0 3 9))).map (·.mem.read 2) = some 9 := by decide

theorem witness_RegistersChangeOnlyAsDestinationOrFlag :
    (nextState (exec (.loadRegs 2) (start 0))).isSome = true ∧ mayWriteReg (.loadRegs 2) 3 = false
    ∧ mayWriteReg (.loadRegs 2) 2 = true ∧ mayWriteReg (.addReg 1 2) 2 = false := by decide

theorem witness_RunStateChangesOnlyByTheListedTransitions :
    (nextState (transact .step (start 0xF30A))).map (·.run) = some (.awaitKey 3)
    ∧ (nextState (transact (.keyDown 5) waitingState)).map (·.run) = some .running
    ∧ (nextState (transact .step (start 0))).map (·.run)
      = some (.halted ⟨.unknownInstruction, 0⟩ 0x200)
    ∧ (nextState (transact (.reset Init.clean) haltedState)).map (·.run) = some .running := by
  decide

theorem witness_HaltedIsLeftOnlyByReset :
    haltedState.run = .halted ⟨.unknownInstruction, 0⟩ 0x200
    ∧ (nextState (transact (.loadProgram [1]) haltedState)).map (·.run) = some haltedState.run := by
  decide

theorem witness_EveryStepKeepsTheInvariant :
    CoreInv { start 0x2300 with depth := 1, stack := Vector.replicate 16 0x1000, pc := 0x200 }
    ∧ after { start 0x2300 with depth := 1, stack := Vector.replicate 16 0x1000, pc := 0x200 }
      (·.sp) = some 1 :=
  ⟨⟨by decide, by decide, by decide, trivial, by decide, by decide⟩, by decide⟩

/-- A state with a return address stored takes every transaction but RESET. -/
theorem witness_EveryTransactionKeepsTheInvariant :
    CoreInv { start 0x2300 with depth := 1, stack := Vector.replicate 16 0x1000 }
    ∧ [Transaction.step, .loadProgram [0x12, 0x34], .keyDown 15, .timerTick].all
      (fun tr => (nextState (transact tr
        { start 0x2300 with depth := 1, stack := Vector.replicate 16 0x1000 })).isSome) = true :=
  ⟨⟨by decide, by decide, by decide, trivial, by decide, by decide⟩, by decide⟩

theorem witness_EveryReachableStateMeetsTheInvariant :
    Reachable (timerTick (resetWith Init.clean haltedState)) :=
  ⟨haltedState, Init.clean, [.timerTick], rfl⟩

theorem witness_OneByteAccessesReadAndWriteBelow4096 :
    Memory.wf [(0x200, 0x12), (0xFFF, 1)] = true ∧ 0xFFF < 4096 ∧ 4096 ≤ 0x1000 := by decide

theorem witness_MemoriesThatReadAlikeAreEqual :
    Memory.wf [(0, 0x12)] = true ∧ Memory.wf ((Memory.write [] 0xFFF 1).write 0 0x12) = true
    ∧ Memory.wf [(0, 0xF0)] = false := by decide

theorem witness_PushAndPopFollowTheStackRules :
    (start 0).sp < 15 ∧ { start 0 with depth := 15 }.sp < 15 ∧ { start 0 with depth := 16 }.sp = 15
    ∧ { start 0 with depth := 1 }.sp > -1 ∧ (start 0).sp = -1 := by decide

theorem witness_PushedAddressesPopInReverse :
    (start 0).depth.val + (List.replicate 16 (0x300 : Word)).length ≤ 16 := by decide

theorem witness_CallPushesTheAdvancedPcAndJumps :
    fieldOp 0x2FFF = 0x2 ∧ (start 0).sp < 15 ∧ { start 0 with depth := 15 }.sp < 15
    ∧ { start 0 with depth := 16 }.sp = 15 := by decide

theorem witness_RetPopsPc :
    { start 0 with depth := 16 }.sp > -1 ∧ { start 0 with depth := 1 }.sp > -1
    ∧ (start 0).sp = -1 := by decide

/-- Words of the families that the decode clauses of the instruction statements name. -/
theorem witness_fields_of_the_decode_clauses :
    fieldOp 0x1234 = 0x1 ∧ fieldOp 0xB300 = 0xB ∧ fieldOp 0x3342 = 0x3 ∧ fieldOp 0x4342 = 0x4
    ∧ (fieldOp 0x5120 = 0x5 ∧ fieldN 0x5120 = 0) ∧ (fieldOp 0x9121 = 0x9 ∧ fieldN 0x9121 = 1)
    ∧ fieldOp 0x6A2B = 0x6 ∧ fieldOp 0x7103 = 0x7 ∧ fieldOp 0xC10F = 0xC ∧ fieldOp 0xA123 = 0xA
    ∧ fieldOp 0xD12F = 0xD := by decide

theorem witness_selectors_of_the_decode_clauses :
    (∀ n : Nibble, fieldOp (formatRR 0x8 1 2 (nibbleBits n)) = 0x8
      ∧ fieldN (formatRR 0x8 1 2 (nibbleBits n)) = n)
    ∧ (fieldOp 0xE59E = 0xE ∧ fieldKk 0xE59E = 0x9E) ∧ (fieldOp 0xE5A1 = 0xE ∧ fieldKk 0xE5A1 = 0xA1)
    ∧ ∀ kk ∈ [0x07, 0x0A, 0x15, 0x18, 0x1E, 0x29, 0x33, 0x55, 0x65],
      fieldOp (formatRK 0xF 3 kk) = 0xF ∧ fieldKk (formatRK 0xF 3 kk) = kk := by decide

/-- The flag clauses ask for a destination other than VF. -/
theorem witness_destination_is_not_the_flag : (0 : Nibble) ≠ vf ∧ (14 : Nibble) ≠ vf := by decide

theorem witness_GlyphLoadPointsIndexAtTheFont :
    ((start1 0 4 15).reg 4).toNat < 16 ∧ 16 ≤ ((start1 0 4 16).reg 4).toNat := by decide

theorem witness_BcdStoresThreeDigits :
    (start 0).mem.wf = true ∧ { start 0 with i := 0xFFD }.i.toNat + 2 < 4096
    ∧ 4096 ≤ { start 0 with i := 0xFFE }.i.toNat + 2 := by decide

/-- V0 to VF at 0xFF0 fit; at 0xFF1 they do not; the same for the load and the round trip. -/
theorem witness_block_accesses :
    (start 0xFF55).mem.wf = true ∧ { start 0 with i := 0xFF0 }.i.toNat + (15 : Nibble).val < 4096
    ∧ 4096 ≤ { start 0 with i := 0xFF1 }.i.toNat + (15 : Nibble).val
    ∧ { start 0 with i := 0xFFF }.i.toNat + (0 : Nibble).val < 4096 := by decide

theorem witness_BlockStoreThenLoadRoundTrips :
    let t := (nextState (exec (.storeRegs 15) { start1 0 15 7 with i := 0xFF0 })).getD (start 0)
    { start 0 with mem := t.mem, i := 0xFF0 }.mem = t.mem ∧ t.mem.read 0xFFF = 7 := by decide

theorem witness_FetchSeesStoredBytes :
    (start 0).mem.wf = true ∧ 1 ≤ (1 : Nibble).val
    ∧ { start 0 with i := 0xFFE }.i.toNat + (1 : Nibble).val < 4096 := by decide

theorem witness_ClippingReadingsAgreeUnlessTheSpriteOverhangs :
    (63 < 64) ∧ (64 ≤ 70 ∧ 70 ≤ 70 ∧ 30 ≤ 30) ∧ inFrame .linear 30 70 = true
    ∧ inFrame .linear 31 64 = false := by decide

/-- The last sprite that fits ends at 0xFFF; n = 0 fits anywhere; one byte more halts; and a
covered pixel that was lit. -/
theorem witness_DrawTogglesCoveredPixelsAndReportsCollision :
    { start 0 with i := 0xFF1 }.i.toNat + (15 : Nibble).val ≤ 4096
    ∧ (0 : Nibble).val = 0
    ∧ ((15 : Nibble).val ≠ 0 ∧ 4096 < { start 0 with i := 0xFF2 }.i.toNat + (15 : Nibble).val)
    ∧ spriteCovers (poke 0x300 0x01 (lit 7 (start 0))) 0 1 1 7
    ∧ (poke 0x300 0x01 (lit 7 (start 0))).fb.pixel 7 = true :=
  ⟨by decide, by decide, by decide, ⟨0, 7, by decide⟩, by decide⟩

theorem witness_DrawingTwiceRestoresTheFramebuffer :
    (0 : Nibble) ≠ vf ∧ (14 : Nibble) ≠ vf
    ∧ { start 0 with i := 0xFFF }.i.toNat + (1 : Nibble).val ≤ 4096 := by decide

theorem witness_KeySkipsTestTheKeyVxNames :
    ((start1 0 5 15).reg 5).toNat = (15 : Nibble).val ∧ (keyDown 15 (start 0)).key 15 = true
    ∧ 16 ≤ ((start1 0 5 16).reg 5).toNat := by decide

theorem witness_KeyDownPressesOrDelivers :
    (start 0).run = .running ∧ waitingState.run = .awaitKey 3
    ∧ haltedState.run = .halted ⟨.unknownInstruction, 0⟩ 0x200 := by decide

theorem witness_TimerTickDecrementsNonzeroTimers :
    waitingState.isHalted = false ∧ haltedState.isHalted = true := by decide

theorem witness_ResetSetsTheResetValues :
    (79 < 80 ∧ 4015 < 4016) ∧ (resetWith Init.clean haltedState).run = .running := by decide

theorem witness_LoadProgramWritesTheImage :
    (start 0).mem.wf = true ∧ (List.replicate 3584 (0 : Byte)).length ≤ 3584
    ∧ (start 0).isHalted = false ∧ haltedState.isHalted = true
    ∧ 3584 < (List.replicate 3585 (0 : Byte)).length := by
  refine ⟨by decide, ?_, by decide, by decide, ?_⟩ <;> rw [List.length_replicate]
  omega

theorem witness_JumpToItselfIsAnIdleLoop :
    (start 0x1200).run = .running ∧ (start 0x1200).pc.toNat = (0x200 : Addr12).toNat
    ∧ (0x200 : Addr12).toNat + 1 < 4096
    ∧ ((start 0x1200).mem.read (0x200 : Addr12).toNat).toNat = 0x10 + (0x200 : Addr12).toNat / 256
    ∧ ((start 0x1200).mem.read ((0x200 : Addr12).toNat + 1)).toNat
      = (0x200 : Addr12).toNat % 256 := by decide

end Sys2Proof.Tests
end

namespace Sys2Proof

/-! ### A legal word decodes (R94, R95) -/

/-- The families that `op` alone selects. -/
theorem decodes_of_hits_family {w : Word} {op : BitVec 4} (name : String)
    (hop : op ∈ [0x1#4, 0x2#4, 0x3#4, 0x4#4, 0x6#4, 0x7#4, 0xA#4, 0xB#4, 0xC#4, 0xD#4])
    (h : (OpRow.mk name (formatA op 0) 0xF000).hits w = true) : ∃ i, decodeWord w = .ok i := by
  rw [hits_family] at h
  unfold decodeWord
  rw [h]
  fin_cases hop <;> exact ⟨_, rfl⟩

/-- Families 5 and 9, with their one selector. -/
theorem decodes_of_hits_skip {w : Word} {op : BitVec 4} (name : String)
    (hop : op ∈ [0x5#4, 0x9#4])
    (h : (OpRow.mk name (formatRR op 0 0 (nibbleBits 0)) 0xF00F).hits w = true) :
    ∃ i, decodeWord w = .ok i := by
  obtain ⟨hw, hn⟩ := (hits_family_n ..).1 h
  unfold decodeWord
  rw [hw, hn]
  fin_cases hop <;> exact ⟨_, rfl⟩

theorem decodes_of_hits_family8 {w : Word} {n : Nibble} (name : String)
    (hsel : n ∈ [0, 1, 2, 3, 4, 5, 6, 7, 0xE])
    (h : (OpRow.mk name (formatRR 0x8 0 0 (nibbleBits n)) 0xF00F).hits w = true) :
    ∃ i, decodeWord w = .ok i := by
  obtain ⟨hw, hn⟩ := (hits_family_n ..).1 h
  unfold decodeWord decodeFamily8
  rw [hw, hn]
  fin_cases hsel <;> exact ⟨_, rfl⟩

theorem decodes_of_hits_familyE {w : Word} {kk : Byte} (name : String)
    (hsel : kk ∈ [0x9E#8, 0xA1#8])
    (h : (OpRow.mk name (formatRK 0xE 0 kk) 0xF0FF).hits w = true) :
    ∃ i, decodeWord w = .ok i := by
  obtain ⟨hw, hkk⟩ := (hits_family_kk ..).1 h
  unfold decodeWord decodeFamilyE
  rw [hw, hkk]
  fin_cases hsel <;> exact ⟨_, rfl⟩

theorem decodes_of_hits_familyF {w : Word} {kk : Byte} (name : String)
    (hsel : kk ∈ [0x07#8, 0x0A#8, 0x15#8, 0x18#8, 0x1E#8, 0x29#8, 0x33#8, 0x55#8, 0x65#8])
    (h : (OpRow.mk name (formatRK 0xF 0 kk) 0xF0FF).hits w = true) :
    ∃ i, decodeWord w = .ok i := by
  obtain ⟨hw, hkk⟩ := (hits_family_kk ..).1 h
  unfold decodeWord decodeFamilyF
  rw [hw, hkk]
  fin_cases hsel <;> exact ⟨_, rfl⟩

/-- A row that fixes all bits is hit by its one word. -/
theorem eq_of_hits_exact {w pattern : Word} (name : String)
    (h : (OpRow.mk name pattern 0xFFFF).hits w = true) : w = pattern := by
  rw [OpRow.hits_iff] at h
  exact BitVec.and_allOnes.symm.trans h

theorem decodes_of_hits_opRows0to7 {w : Word} :
    ∀ r ∈ opRows0to7, r.hits w = true → ∃ i, decodeWord w = .ok i := by
  simp only [opRows0to7, List.forall_mem_cons]
  exact ⟨fun h => ⟨.cls, by rw [eq_of_hits_exact _ h]; rfl⟩,
    fun h => ⟨.ret, by rw [eq_of_hits_exact _ h]; rfl⟩,
    decodes_of_hits_family (op := 0x1) _ (by decide),
    decodes_of_hits_family (op := 0x2) _ (by decide),
    decodes_of_hits_family (op := 0x3) _ (by decide),
    decodes_of_hits_family (op := 0x4) _ (by decide),
    decodes_of_hits_skip (op := 0x5) _ (by decide),
    decodes_of_hits_family (op := 0x6) _ (by decide),
    decodes_of_hits_family (op := 0x7) _ (by decide), by simp⟩

theorem decodes_of_hits_opRows8 {w : Word} :
    ∀ r ∈ opRows8, r.hits w = true → ∃ i, decodeWord w = .ok i := by
  simp only [opRows8, List.forall_mem_cons]
  exact ⟨decodes_of_hits_family8 (n := 0) _ (by decide),
    decodes_of_hits_family8 (n := 1) _ (by decide),
    decodes_of_hits_family8 (n := 2) _ (by decide),
    decodes_of_hits_family8 (n := 3) _ (by decide),
    decodes_of_hits_family8 (n := 4) _ (by decide),
    decodes_of_hits_family8 (n := 5) _ (by decide),
    decodes_of_hits_family8 (n := 6) _ (by decide),
    decodes_of_hits_family8 (n := 7) _ (by decide),
    decodes_of_hits_family8 (n := 0xE) _ (by decide), by simp⟩

theorem decodes_of_hits_opRows9toE {w : Word} :
    ∀ r ∈ opRows9toE, r.hits w = true → ∃ i, decodeWord w = .ok i := by
  simp only [opRows9toE, List.forall_mem_cons]
  exact ⟨decodes_of_hits_skip (op := 0x9) _ (by decide),
    decodes_of_hits_family (op := 0xA) _ (by decide),
    decodes_of_hits_family (op := 0xB) _ (by decide),
    decodes_of_hits_family (op := 0xC) _ (by decide),
    decodes_of_hits_family (op := 0xD) _ (by decide),
    decodes_of_hits_familyE (kk := 0x9E) _ (by decide),
    decodes_of_hits_familyE (kk := 0xA1) _ (by decide), by simp⟩

theorem decodes_of_hits_opRowsF {w : Word} :
    ∀ r ∈ opRowsF, r.hits w = true → ∃ i, decodeWord w = .ok i := by
  simp only [opRowsF, List.forall_mem_cons]
  exact ⟨decodes_of_hits_familyF (kk := 0x07) _ (by decide),
    decodes_of_hits_familyF (kk := 0x0A) _ (by decide),
    decodes_of_hits_familyF (kk := 0x15) _ (by decide),
    decodes_of_hits_familyF (kk := 0x18) _ (by decide),
    decodes_of_hits_familyF (kk := 0x1E) _ (by decide),
    decodes_of_hits_familyF (kk := 0x29) _ (by decide),
    decodes_of_hits_familyF (kk := 0x33) _ (by decide),
    decodes_of_hits_familyF (kk := 0x55) _ (by decide),
    decodes_of_hits_familyF (kk := 0x65) _ (by decide), by simp⟩

/-- The decoder takes every word of the opcode map (R94). -/
theorem decodes_of_legalWord {w : Word} (h : legalWord w = true) : ∃ i, decodeWord w = .ok i := by
  obtain ⟨r, hr, hit⟩ := List.any_eq_true.mp h
  simp only [opcodeTable, List.mem_append] at hr
  rcases hr with ((hr | hr) | hr) | hr
  · exact decodes_of_hits_opRows0to7 r hr hit
  · exact decodes_of_hits_opRows8 r hr hit
  · exact decodes_of_hits_opRows9toE r hr hit
  · exact decodes_of_hits_opRowsF r hr hit

/-- A word the decoder rejects is illegal (R95). -/
theorem legalWord_eq_false_of_decode_error {w : Word} {e : DecodeError}
    (h : decodeWord w = .error e) : legalWord w = false := by
  by_contra hl
  obtain ⟨i, hi⟩ := decodes_of_legalWord (Bool.eq_true_of_not_eq_false hl)
  rw [h] at hi
  cases hi

end Sys2Proof

namespace Sys2Proof.Machine

/-! ### What an instruction may write

One inversion of `exec` that the statements about single units and the invariant share. -/

@[simp] theorem State.popValue_afterFetch (s : State) : s.afterFetch.popValue = s.popValue := rfl

/-- Which parts of `s` the STEP of instruction `i` may have changed in `t`, and where the new PC
comes from. -/
structure ExecFrame (i : Instr) (s t : State) : Prop where
  /-- R21, R22. -/
  reg : ∀ r, mayWriteReg i r = false → t.reg r = s.reg r
  /-- R26. -/
  index : t.i = s.i ∨ (∃ nnn, i = .ldI nnn) ∨ ∃ x, i = .addI x ∨ i = .ldF x
  /-- R27. -/
  dt : t.dt = s.dt ∨ ∃ x, i = .ldDtVx x
  /-- R28. -/
  st : t.st = s.st ∨ ∃ x, i = .ldStVx x
  /-- R29, R30. -/
  stack : (t.depth = s.depth ∧ t.stack = s.stack) ∨ i = .ret ∨ ∃ nnn, i = .call nnn
  /-- R31. -/
  fb : t.fb = s.fb ∨ i = .cls ∨ ∃ x y n, i = .drw x y n
  /-- R68; a store leaves canonical memory canonical. -/
  mem : t.mem = s.mem
    ∨ (∃ x, i = .ldB x ∨ i = .storeRegs x) ∧ (s.mem.wf = true → t.mem.wf = true)
  /-- R25: AdvancePC once or, for a skip, twice; a jump target; a popped address. -/
  pc : t.pc = advancedPc s.pc ∨ t.pc = advancedPc (advancedPc s.pc)
    ∨ (∃ nnn, (i = .jp nnn ∨ i = .call nnn) ∧ t.pc = zext16 nnn)
    ∨ (∃ nnn, i = .jpV0 nnn ∧ t.pc = offsetTarget (zext16 nnn) (s.reg 0))
    ∨ (i = .ret ∧ t.pc = s.popValue)
  /-- R130, R275: only the stack controller emits. -/
  events : t.events = [] ∨ i = .ret ∨ ∃ nnn, i = .call nnn

namespace ExecFrame

/-- A halt after the fetch writes none of the units (R127, R272). -/
theorem halted (i : Instr) (why : HaltReason) (s : State) :
    ExecFrame i s (haltedAfterFetch why s) :=
  ⟨fun _ _ => rfl, .inl rfl, .inl rfl, .inl rfl, .inl ⟨rfl, rfl⟩, .inl rfl, .inl rfl, .inl rfl,
    .inl rfl⟩

/-- An instruction that writes nothing but registers, and the draw counter. -/
theorem registers {i : Instr} {s : State} {d : Bool} (v : Vector Byte 16) (draws : Nat)
    (hr : ∀ r, mayWriteReg i r = false → { s with v := v }.reg r = s.reg r) :
    ExecFrame i s ({ s.afterFetch with v := v, draws := draws }.endStep d) :=
  ⟨hr, .inl rfl, .inl rfl, .inl rfl, .inl ⟨rfl, rfl⟩, .inl rfl, .inl rfl, .inl rfl, .inl rfl⟩

/-- An instruction that writes its destination V[x] alone. -/
theorem destination {i : Instr} {s : State} {d : Bool} {x : Nibble} (b : Byte) (draws : Nat)
    (hx : mayWriteReg i x = true) :
    ExecFrame i s ({ s.afterFetch.setReg x b with draws := draws }.endStep d) := by
  refine registers (s.setReg x b).v draws fun r hr => ?_
  have hne : r ≠ x := by rintro rfl; simp [hx] at hr
  exact State.reg_setReg_ne b hne

/-- An instruction that writes the flag and then its destination V[x]. -/
theorem flagAndDestination {i : Instr} {s : State} {d : Bool} {x : Nibble} (f b : Byte)
    (hx : mayWriteReg i x = true) (hvf : mayWriteReg i vf = true) :
    ExecFrame i s ((s.afterFetch.writeFlagThenResult x f b).endStep d) := by
  refine registers (s.writeFlagThenResult x f b).v s.draws fun r hr => ?_
  have hne : r ≠ x := by rintro rfl; simp [hx] at hr
  have hne' : r ≠ vf := by rintro rfl; simp [hvf] at hr
  exact (State.reg_writeFlagThenResult ..).trans (by rw [if_neg hne, if_neg hne'])

/-- A skip, taken or not, writes PC alone. -/
theorem skip (i : Instr) (s : State) (c d : Bool) :
    ExecFrame i s ((s.afterFetch.skipIf c).endStep d) := by
  cases c with
  | false => exact registers s.v s.draws fun _ _ => rfl
  | true =>
    exact ⟨fun _ _ => rfl, .inl rfl, .inl rfl, .inl rfl, .inl ⟨rfl, rfl⟩, .inl rfl, .inl rfl,
      .inr (.inl rfl), .inl rfl⟩

/-- A store writes memory alone. -/
theorem store {i : Instr} {s : State} {m : Memory} {d : Bool}
    (hi : ∃ x, i = .ldB x ∨ i = .storeRegs x) (wf : s.mem.wf = true → m.wf = true) :
    ExecFrame i s ({ s.afterFetch with mem := m }.endStep d) :=
  ⟨fun _ _ => rfl, .inl rfl, .inl rfl, .inl rfl, .inl ⟨rfl, rfl⟩, .inl rfl, .inr ⟨hi, wf⟩,
    .inl rfl, .inl rfl⟩

/-- A draw writes the framebuffer and VF. -/
theorem draw (x y n : Nibble) (s : State) (f : Frame) (b : Byte) (d : Bool) :
    ExecFrame (.drw x y n) s ({ s.afterFetch.setReg vf b with fb := f }.endStep d) := by
  refine ⟨fun r hr => ?_, .inl rfl, .inl rfl, .inl rfl, .inl ⟨rfl, rfl⟩, .inr (.inr ⟨x, y, n, rfl⟩),
    .inl rfl, .inl rfl, .inl rfl⟩
  have hne : r ≠ vf := by simpa [mayWriteReg] using hr
  exact State.reg_setReg_ne (s := s) b hne

/-- A block load writes V0 to Vx alone. -/
theorem load (x : Nibble) (s : State) {bs : List Byte} (hbs : bs.length = x.val + 1) (d : Bool) :
    ExecFrame (.loadRegs x) s ((setRegsFrom 0 bs s.afterFetch).endStep d) := by
  rw [setRegsFrom_eq_v]
  refine registers _ s.draws fun r hr => ?_
  have hxr : x.val < r.val := by simpa [mayWriteReg] using hr
  refine (reg_setRegsFrom bs 0 s.afterFetch r).trans ?_
  simp [List.getElem?_eq_none (show bs.length ≤ r.val by omega)]

end ExecFrame

/-- Every STEP of a decoded instruction stays within its instruction's frame. -/
theorem exec_frame {i : Instr} {s t : State} (h : exec i s = .next t) : ExecFrame i s t := by
  cases i with
  | drw x y n =>
    rcases execDrw_cases h with ⟨f, hit, rfl⟩ | ⟨-, -, rfl⟩
    · exact .draw ..
    · exact .halted ..
  | ldB x =>
    rcases execLdB_cases h with ⟨m, rfl, wf⟩ | ⟨-, rfl⟩
    · exact .store ⟨x, .inl rfl⟩ wf
    · exact .halted ..
  | storeRegs x =>
    rcases execStoreRegs_cases h with ⟨m, rfl, wf⟩ | ⟨-, rfl⟩
    · exact .store ⟨x, .inr rfl⟩ wf
    · exact .halted ..
  | loadRegs x =>
    rcases execLoadRegs_cases h with ⟨bs, hbs, rfl⟩ | ⟨-, rfl⟩
    · exact .load x s hbs false
    · exact .halted ..
  | skp x | sknp x =>
    rcases keyStep_cases h with ⟨c, rfl⟩ | ⟨-, rfl⟩
    · exact .skip ..
    · exact .halted ..
  | seImm | sneImm | seReg | sneReg =>
    cases h
    exact .skip ..
  | ldImm | addImm | ldReg | orReg | andReg | xorReg | ldVxDt | rnd =>
    cases h
    exact .destination _ _ (by simp [mayWriteReg])
  | addReg | subReg | shr | subnReg | shl =>
    cases h
    exact .flagAndDestination _ _ (by simp [mayWriteReg]) (by simp [mayWriteReg])
  | cls | ret | jp | call | ldI | jpV0 | ldVxK | ldDtVx | ldStVx | addI | ldF =>
    cases h
    refine ⟨fun r _ => State.reg_congr (by simp) r, ?_, ?_, ?_, ?_, ?_, ?_, ?_, ?_⟩ <;> simp

/-- Settles O15: the frame of `exec`, unit by unit. -/
theorem eachUnitIsWrittenOnlyByItsInstructions :
    Obligations.EachUnitIsWrittenOnlyByItsInstructions := by
  intro i s t h
  obtain ⟨-, index, dt, st, stack, fb, mem, -, -⟩ := exec_frame h
  have hsp : t.depth = s.depth ∧ t.stack = s.stack → t.sp = s.sp ∧ t.stack = s.stack :=
    fun ⟨hd, hs⟩ => ⟨by rw [State.sp, State.sp, hd], hs⟩
  exact ⟨index, dt, st, stack.imp_left hsp, fb, mem.imp_right And.left⟩

/-- Settles O16: the register clause of the frame of `exec`. -/
theorem registersChangeOnlyAsDestinationOrFlag :
    Obligations.RegistersChangeOnlyAsDestinationOrFlag :=
  fun _ _ _ r h hr => (exec_frame h).reg r hr

end Sys2Proof.Machine

namespace Sys2Proof.Machine

/-! ### Halt records (R271) -/

/-- A fetch that halts reports a 16-bit address outside memory (R123). -/
theorem haltRecordOk_of_fetchWord {s : State} {why : HaltReason}
    (h : fetchWord s = .error why) : haltRecordOk why := by
  rcases fetchWord_cases s with ⟨-, e⟩ | ⟨hge, e⟩ | ⟨heq, e⟩ <;> rw [e] at h <;> cases h
  · exact ⟨hge, Nat.le_pred_of_lt s.pc.isLt⟩
  · exact ⟨heq.ge, by rw [heq]; decide⟩

/-- The halt of a rejected word reports that word, and it is illegal (R95, R126). -/
theorem haltRecordOk_of_decodeWord {w : Word} {e : DecodeError} (h : decodeWord w = .error e) :
    haltRecordOk ⟨.unknownInstruction, w.toNat⟩ := by
  refine ⟨w.isLt, ?_⟩
  rw [BitVec.ofNat_toNat, BitVec.setWidth_eq]
  exact legalWord_eq_false_of_decode_error h

/-- What a decoded instruction does to the run state: it completes, waiting only after LD Vx, K and
drawing only in DRW, or it halts with a record R271 allows. -/
theorem exec_run {i : Instr} {s t : State} (h : exec i s = .next t) :
    ((t.run = s.run ∨ ∃ x, i = .ldVxK x ∧ t.run = .awaitKey x)
      ∧ (t.drawFlag = true ↔ ∃ x y n, i = .drw x y n))
    ∨ ∃ why, haltRecordOk why ∧ t = haltedAfterFetch why s := by
  rcases exec_completes_or_halts i s t h with ⟨hrun, hdraw, -⟩ | ⟨⟨cause, info⟩, rfl, hwhy⟩
  · exact .inl ⟨hrun, hdraw⟩
  · refine .inr ⟨_, ?_, rfl⟩
    rcases hwhy with ⟨rfl, rfl, -⟩ | ⟨rfl, x, -, hge, rfl⟩
    · exact firstOutside_range s.i
    · exact ⟨hge, Nat.le_pred_of_lt (s.reg x).isLt⟩

/-! ### Return addresses (R140 to R142) -/

/-- Every stored return address is a value AdvancePC gives: the clause of `CoreInv` on the stack,
with a name. -/
def ReturnAddressesOk (s : State) : Prop :=
  ∀ k : Fin 16, k.val < s.depth.val → 0x200 ≤ s.stack[k].toNat ∧ s.stack[k].toNat ≤ 0x1000

namespace ReturnAddressesOk

variable {s t : State}

theorem push (hs : ReturnAddressesOk s) (pc : Word) :
    ReturnAddressesOk (s.push (advancedPc pc)) := by
  by_cases hd : s.depth.val < 16
  · rw [State.push_of_lt _ hd]
    intro k hk
    by_cases hkd : s.depth.val = k.val
    · simpa [Vector.getElem_set, hkd] using advancedPc_range pc
    · have hlt : k.val < s.depth.val := by simp only at hk; omega
      simpa [Vector.getElem_set, hkd] using hs k hlt
  · rw [State.push_of_full _ hd]
    exact hs

theorem popped (hs : ReturnAddressesOk s) : ReturnAddressesOk s.popped := by
  by_cases hd : 0 < s.depth.val
  · rw [State.popped_of_pos hd]
    intro k hk
    exact hs k (by simp only at hk; omega)
  · rw [State.popped_of_empty hd]
    exact hs

/-- A popped address is a stored one, or 0x200. -/
theorem popValue_range (hs : ReturnAddressesOk s) :
    0x200 ≤ s.popValue.toNat ∧ s.popValue.toNat ≤ 0x1000 := by
  by_cases hd : 0 < s.depth.val
  · rw [State.popValue_of_pos hd]
    exact hs ⟨s.depth.val - 1, by omega⟩ (Nat.sub_lt hd Nat.one_pos)
  · rw [State.popValue_of_empty hd]
    decide

/-- Only RET and CALL touch the stack, and what CALL pushes is an advanced PC. -/
theorem of_exec {i : Instr} (hs : ReturnAddressesOk s) (h : exec i s = .next t) :
    ReturnAddressesOk t := by
  rcases (exec_frame h).stack with ⟨hdepth, hstack⟩ | rfl | ⟨nnn, rfl⟩
  · simpa only [ReturnAddressesOk, hdepth, hstack] using hs
  · cases h
    exact popped (s := s.afterFetch) hs
  · cases h
    exact push (s := s.afterFetch) hs s.pc

end ReturnAddressesOk

/-! ### Events (R130, R275) -/

theorem State.length_events_push {s : State} (a : Word) (h : s.events = []) :
    (s.push a).events.length ≤ 1 := by
  by_cases hd : s.depth.val < 16
  · simp [State.push_of_lt a hd, h]
  · simp [State.push_of_full a hd, h]

theorem State.length_events_popped {s : State} (h : s.events = []) :
    s.popped.events.length ≤ 1 := by
  by_cases hd : 0 < s.depth.val
  · simp [State.popped_of_pos hd, h]
  · simp [State.popped_of_empty hd, h]

/-- The fetch empties the events, and an instruction pushes or pops at most once. -/
theorem length_events_exec {i : Instr} {s t : State} (h : exec i s = .next t) :
    t.events.length ≤ 1 := by
  rcases (exec_frame h).events with e | rfl | ⟨nnn, rfl⟩
  · simp [e]
  · cases h
    exact State.length_events_popped (s := s.afterFetch) rfl
  · cases h
    exact State.length_events_push (s := s.afterFetch) _ rfl

/-! ### The invariant, operation by operation -/

namespace CoreInv

variable {s t : State}

/-- PC after an instruction is at most 0x10FE, the farthest target of JP V0 (R25, R151). -/
theorem pc_of_exec {i : Instr} (inv : CoreInv s) (h : exec i s = .next t) :
    t.pc.toNat ≤ 0x10FE := by
  rcases (exec_frame h).pc with e | e | ⟨nnn, -, e⟩ | ⟨nnn, -, e⟩ | ⟨-, e⟩ <;> rw [e]
  · exact (advancedPc_range s.pc).2.trans (by decide)
  · exact (advancedPc_range (advancedPc s.pc)).2.trans (by decide)
  · rw [zext16_toNat]
    omega
  · rw [offsetTarget_toNat]
    omega
  · exact (ReturnAddressesOk.popValue_range inv.stack).2.trans (by decide)

theorem mem_of_exec {i : Instr} (inv : CoreInv s) (h : exec i s = .next t) :
    t.mem.wf = true := by
  rcases (exec_frame h).mem with e | ⟨-, wf⟩
  · rw [e]
    exact inv.mem
  · exact wf inv.mem

/-- A halt of the fetch, with a record R271 allows, keeps the invariant (R123). -/
theorem haltedInFetch {why : HaltReason} (inv : CoreInv s) (hwhy : haltRecordOk why) :
    CoreInv { s with events := [], drawFlag := false, run := .halted why s.pc } where
  mem := inv.mem
  pc := inv.pc
  stack := inv.stack
  run := ⟨hwhy, inv.pc⟩
  events := Nat.zero_le 1
  draw := nofun

/-- A halt after the fetch, with a record R271 allows, keeps the invariant (R126, R127). -/
theorem haltedAfterFetch {why : HaltReason} (inv : CoreInv s) (hwhy : haltRecordOk why) :
    CoreInv (haltedAfterFetch why s) where
  mem := inv.mem
  pc := (advancedPc_range s.pc).2.trans (by decide)
  stack := inv.stack
  run := ⟨hwhy, inv.pc⟩
  events := Nat.zero_le 1
  draw := nofun

theorem of_exec {i : Instr} (inv : CoreInv s) (hrun : s.run = .running)
    (h : exec i s = .next t) : CoreInv t := by
  rcases exec_run h with ⟨hr, hdraw⟩ | ⟨why, hwhy, rfl⟩
  · refine ⟨inv.mem_of_exec h, inv.pc_of_exec h, ReturnAddressesOk.of_exec inv.stack h, ?_,
      length_events_exec h, fun hd => ?_⟩
    · rcases hr with hr | ⟨x, -, hr⟩ <;> rw [hr]
      · exact inv.run
      · trivial
    · obtain ⟨x, y, n, rfl⟩ := hdraw.1 hd
      rcases hr with hr | ⟨x, hi, -⟩
      · exact hr.trans hrun
      · cases hi
  · exact inv.haltedAfterFetch hwhy

theorem of_step (inv : CoreInv s) (h : step s = .next t) : CoreInv t := by
  obtain ⟨hrun, ⟨why, hf, rfl⟩ | ⟨w, e, -, hd, rfl⟩ | ⟨w, i, -, -, hx⟩⟩ := step_cases h
  · exact inv.haltedInFetch (haltRecordOk_of_fetchWord hf)
  · exact inv.haltedAfterFetch (haltRecordOk_of_decodeWord hd)
  · exact inv.of_exec hrun hx

/-- RESET establishes the invariant, whatever INIT, FONT and the state before it (R300). -/
theorem of_resetWith (p : Init) (s : State) : CoreInv (resetWith p s) where
  mem := resetWith_mem_wf p s
  pc := by rw [resetWith_pc]; decide
  stack := fun _ hk => absurd hk (Nat.not_lt_zero _)
  run := trivial
  events := Nat.zero_le 1
  draw := nofun

theorem of_loadProgram {image : List Byte} (inv : CoreInv s)
    (h : loadProgram image s = .next t) : CoreInv t := by
  obtain ⟨m, rfl, wf⟩ := loadProgram_cases h
  exact ⟨wf inv.mem, inv.pc, inv.stack, inv.run, inv.events, inv.draw⟩

theorem of_keyDown (inv : CoreInv s) (k : Nibble) : CoreInv (keyDown k s) := by
  cases hr : s.run with
  | running =>
    rw [keyDown_running hr]
    exact ⟨inv.mem, inv.pc, inv.stack, inv.run, inv.events, inv.draw⟩
  | awaitKey r =>
    rw [keyDown_awaitKey hr]
    exact ⟨inv.mem, inv.pc, inv.stack, trivial, inv.events, fun _ => rfl⟩
  | halted why a =>
    rw [keyDown_halted hr]
    exact inv

theorem of_timerTick (inv : CoreInv s) : CoreInv (timerTick s) := by
  cases hs : s.isHalted with
  | false =>
    rw [timerTick_running hs]
    exact ⟨inv.mem, inv.pc, inv.stack, inv.run, inv.events, inv.draw⟩
  | true =>
    rw [timerTick_halted hs]
    exact inv

theorem of_transact {tr : Transaction} (inv : CoreInv s) (h : transact tr s = .next t) :
    CoreInv t := by
  cases tr with
  | reset p => cases h; exact of_resetWith p s
  | loadProgram image => exact inv.of_loadProgram h
  | step => exact inv.of_step h
  | keyDown k => cases h; exact inv.of_keyDown k
  | timerTick => cases h; exact inv.of_timerTick

theorem of_transactAll {ts : List Transaction} (inv : CoreInv s)
    (h : transactAll ts s = .next t) : CoreInv t := by
  induction ts generalizing s with
  | nil => cases h; exact inv
  | cons tr ts ih =>
    cases htr : transact tr s with
    | next u =>
      rw [transactAll_cons htr] at h
      exact ih (inv.of_transact htr) h
    | fault _ => simp [transactAll, htr] at h
    | refused _ => simp [transactAll, htr] at h

end CoreInv

/-- Settles O20: fetch, decode and execute each keep every clause. -/
theorem everyStepKeepsTheInvariant : Obligations.EveryStepKeepsTheInvariant :=
  fun _ _ inv h => inv.of_step h

/-- Settles O58: one lemma per transaction. -/
theorem everyTransactionKeepsTheInvariant : Obligations.EveryTransactionKeepsTheInvariant :=
  ⟨fun _ _ _ inv h => inv.of_transact h, CoreInv.of_resetWith⟩

/-- Settles O21: RESET establishes the invariant and every transaction after it keeps it. -/
theorem everyReachableStateMeetsTheInvariant :
    Obligations.EveryReachableStateMeetsTheInvariant := by
  rintro s ⟨s₀, init, ts, h⟩
  exact (CoreInv.of_resetWith init s₀).of_transactAll h

/-- Settles O17: by the transaction, and for STEP by where it ends. -/
theorem runStateChangesOnlyByTheListedTransitions :
    Obligations.RunStateChangesOnlyByTheListedTransitions := by
  intro tr s t h hne
  cases tr with
  | reset p => cases h; exact .inr (.inr (.inr ⟨p, rfl, rfl⟩))
  | loadProgram image =>
    obtain ⟨m, rfl, -⟩ := loadProgram_cases h
    exact absurd rfl hne
  | step =>
    obtain ⟨hrun, ⟨why, -, rfl⟩ | ⟨w, e, -, -, rfl⟩ | ⟨w, i, hf, hd, hx⟩⟩ := step_cases h
    · exact .inr (.inr (.inl ⟨hrun, rfl, _, rfl⟩))
    · exact .inr (.inr (.inl ⟨hrun, rfl, _, rfl⟩))
    · rcases exec_run hx with ⟨hr | ⟨x, rfl, hr⟩, -⟩ | ⟨why, -, rfl⟩
      · exact absurd hr hne
      · exact .inl ⟨hrun, rfl, w, x, hf, hd, hr⟩
      · exact .inr (.inr (.inl ⟨hrun, rfl, why, rfl⟩))
  | keyDown k =>
    cases h
    cases hr : s.run with
    | running => exact absurd (by rw [keyDown_running hr]) hne
    | awaitKey r => exact .inr (.inl ⟨r, k, rfl, rfl, by rw [keyDown_awaitKey hr]⟩)
    | halted why a => exact absurd (by rw [keyDown_halted hr]) hne
  | timerTick =>
    cases h
    cases hs : s.isHalted with
    | false => exact absurd (by rw [timerTick_running hs]) hne
    | true => exact absurd (by rw [timerTick_halted hs]) hne

/-! ### The model's reset state (R36, R37) -/

theorem background_of_ge {a : Nat} (h : 0x50 ≤ a) : background a = 0 :=
  if_neg (Nat.not_lt.mpr h)

/-- The bytes of INIT CLEAN with the default FONT are those an unlisted address reads as. -/
theorem memByte_clean (a : Nat) : Init.clean.memByte a = background a := by
  by_cases h : a < 80
  · simp [Init.memByte, background, h, Init.clean, Config.fontSize]
  · simp [Init.memByte, background, h, Init.clean, Config.fontSize]

/-- So canonical memory with these bytes lists no address. -/
theorem ofBytes_memByte_clean : Memory.ofBytes Init.clean.memByte = [] := by
  refine Memory.eq_of_read_from (lo := 0) (Memory.ofBytes_wf Init.clean.memByte) rfl fun a => ?_
  rw [Memory.read_ofBytes, memByte_clean, ite_self, Memory.read_nil]

theorem resetWith_clean (s : State) : resetWith Init.clean s
    = { State.reset with drawClip := s.drawClip, draws := s.draws } := by
  simp only [resetWith, ofBytes_memByte_clean]
  rfl

theorem initClean_meets_clean : Init.clean.Clean where
  v x := by simp [Init.clean]
  i := rfl
  dt := rfl
  st := rfl
  fb := Frame.pixel_blank
  keys k := by simp [Init.clean]
  ram a ha := by rw [memByte_clean, background_of_ge ha]

/-- Settles O55: memory is equal because both lists are canonical and read alike. -/
theorem resetStateIsResetUnderClean : Obligations.ResetStateIsResetUnderClean :=
  ⟨initClean_meets_clean, resetWith_clean⟩

/-- Settles O19: the reset state is a RESET, and every RESET establishes the invariant. -/
theorem invariantHoldsAtReset : Obligations.InvariantHoldsAtReset := by
  have h := CoreInv.of_resetWith Init.clean State.reset
  rwa [resetWith_clean] at h

end Sys2Proof.Machine

namespace Sys2Proof

/-! ### Decoding undoes encoding (R94) -/

/-- By the format of the word (R93); within the formats that name one, the selector picks the
instruction of the family. -/
theorem decodeWord_encode (i : Instr) : decodeWord (encode i) = .ok i := by
  cases i with
  | cls | ret => rfl
  | jp | call | ldI | jpV0 => simp [encode, decodeWord]
  | seImm | sneImm | ldImm | addImm | rnd => simp [encode, decodeWord]
  | seReg | sneReg | drw => simp [encode, decodeWord]
  | ldReg | orReg | andReg | xorReg | addReg | subReg | shr | subnReg | shl =>
    simp [encode, decodeWord, decodeFamily8]
  | skp | sknp => simp [encode, decodeWord, decodeFamilyE]
  | ldVxDt | ldVxK | ldDtVx | ldStVx | addI | ldF | ldB | storeRegs | loadRegs =>
    simp [encode, decodeWord, decodeFamilyF]

/-- Decoding reads the two bytes of an instruction and hands back the rest (R66, R90). -/
theorem decodeBytes_encodeBytes_append (i : Instr) (rest : List Byte) :
    decodeBytes (encodeBytes i ++ rest) = .ok (i, rest) := by
  simp only [encodeBytes, List.cons_append, List.nil_append, decodeBytes, wordOfBytes_bytes,
    decodeWord_encode]

/-- Settles O1: the word by its format, the bytes because they make the word again. -/
theorem decodingAnEncodedInstructionGivesItBack :
    Obligations.DecodingAnEncodedInstructionGivesItBack :=
  fun i rest => ⟨decodeWord_encode i, decodeBytes_encodeBytes_append i rest⟩

/-- The big-endian word of two bytes, as a number reduced to 16 bits (R66). -/
theorem wordOfBytes_eq_ofNat (hi lo : Byte) :
    wordOfBytes hi lo = BitVec.ofNat 16 (hi.toNat * 256 + lo.toNat) := by
  rw [← wordOfBytes_toNat, BitVec.ofNat_toNat, BitVec.setWidth_eq]

end Sys2Proof

namespace Sys2Proof.Machine

/-! ### The fetch, by where PC is (R123) -/

theorem fetchWord_of_lt {s : State} (h : s.pc.toNat + 1 < Config.memSize) :
    fetchWord s = .ok (wordOfBytes (s.mem.read s.pc.toNat) (s.mem.read (s.pc.toNat + 1))) := by
  rcases fetchWord_cases s with ⟨-, e⟩ | ⟨hge, -⟩ | ⟨heq, -⟩
  · exact e
  · omega
  · omega

theorem fetchWord_of_ge {s : State} (h : Config.memSize ≤ s.pc.toNat) :
    fetchWord s = .error ⟨.memoryOutOfRange, s.pc.toNat⟩ := by
  rcases fetchWord_cases s with ⟨hlt, -⟩ | ⟨-, e⟩ | ⟨heq, -⟩
  · omega
  · exact e
  · omega

theorem fetchWord_of_last {s : State} (h : s.pc.toNat + 1 = Config.memSize) :
    fetchWord s = .error ⟨.memoryOutOfRange, Config.memSize⟩ := by
  rcases fetchWord_cases s with ⟨hlt, -⟩ | ⟨hge, -⟩ | ⟨-, e⟩
  · omega
  · omega
  · rw [e, h]

/-- A STEP whose fetch halts leaves the state of R272 with PC kept (R123). -/
theorem step_of_fetchWord_error {s : State} {why : HaltReason} (hr : s.run = .running)
    (hf : fetchWord s = .error why) :
    step s = .next { s with events := [], drawFlag := false, run := .halted why s.pc } := by
  simp only [step, hr, hf, haltInFetch, raiseHalt]

/-- Settles O6: the fetch is in range and its word is the one the statement writes out. -/
theorem stepRunsTheDecodedInstruction : Obligations.StepRunsTheDecodedInstruction := by
  intro s i hrun hpc hd
  rw [← wordOfBytes_eq_ofNat] at hd
  exact step_of_exec hrun (fetchWord_of_lt hpc) hd

/-- Settles O7: the first byte is out of range at 4096 or more, the second at 0xFFF. -/
theorem fetchOutsideMemoryHaltsWithPcKept : Obligations.FetchOutsideMemoryHaltsWithPcKept := by
  intro s hrun
  constructor
  · intro hge
    exact step_of_fetchWord_error hrun (fetchWord_of_ge hge)
  · intro hpc
    have hlast : s.pc.toNat + 1 = Config.memSize := by rw [hpc]; rfl
    exact step_of_fetchWord_error hrun (fetchWord_of_last hlast)

/-! ### What a halt was for (R271) -/

/-- A fetch that halts has PC out of memory, or on its last byte. -/
theorem fetchWord_error_cases {s : State} {why : HaltReason} (h : fetchWord s = .error why) :
    (Config.memSize ≤ s.pc.toNat ∧ why = ⟨.memoryOutOfRange, s.pc.toNat⟩)
    ∨ (s.pc = 0xFFF ∧ why = ⟨.memoryOutOfRange, Config.memSize⟩) := by
  rcases fetchWord_cases s with ⟨-, e⟩ | ⟨hge, e⟩ | ⟨heq, e⟩ <;> rw [e] at h <;> cases h
  · exact .inl ⟨hge, rfl⟩
  · exact .inr ⟨BitVec.eq_of_toNat_eq (Nat.succ.inj heq), by rw [heq]⟩

/-- Settles O14: by where the step halted, in the fetch, in decode or in the execute phase. -/
theorem onlyTheListedConditionsHalt : Obligations.OnlyTheListedConditionsHalt := by
  intro s t why a h ht
  obtain ⟨hrun, ⟨why', hf, rfl⟩ | ⟨w, e, hf, hd, rfl⟩ | ⟨w, i, hf, hd, hx⟩⟩ := step_cases h
  · cases ht
    rcases fetchWord_error_cases hf with ⟨hge, rfl⟩ | ⟨hpc, rfl⟩
    · exact .inr (.inl ⟨rfl, hge, .inl ⟨hf, .inl ⟨hge, rfl⟩⟩⟩)
    · exact .inr (.inl ⟨rfl, Nat.le_refl _, .inl ⟨hf, .inr ⟨hpc, rfl⟩⟩⟩)
  · cases ht
    exact .inl ⟨rfl, w, hf, legalWord_eq_false_of_decode_error hd, rfl⟩
  · rcases exec_completes_or_halts i s t hx with ⟨hr | ⟨x, -, hr⟩, -⟩ | ⟨why', rfl, hwhy⟩
    · simp [ht, hrun] at hr
    · simp [ht] at hr
    · cases ht
      rcases hwhy with ⟨hcause, hinfo, hreach⟩ | ⟨hcause, x, hi, hkey⟩
      · have hge : 4096 ≤ why.info := hinfo ▸ (firstOutside_range s.i).1
        exact .inr (.inl ⟨hcause, hge, .inr ⟨w, i, hf, hd, hinfo, hreach⟩⟩)
      · have hskip : decodeWord w = .ok (.skp x) ∨ decodeWord w = .ok (.sknp x) := by
          rcases hi with rfl | rfl
          · exact .inl hd
          · exact .inr hd
        exact .inr (.inr ⟨hcause, w, x, hf, hskip, hkey⟩)

/-! ### Memory -/

/-- Settles O22: the one-byte primitives on either side of 4096, with the law of a read after a
write. -/
theorem oneByteAccessesReadAndWriteBelow4096 :
    Obligations.OneByteAccessesReadAndWriteBelow4096 := by
  intro m a b hm
  constructor
  · intro ha
    refine ⟨memRead_of_lt m ha, m.write a b, memWrite_of_lt m b ha, Memory.write_wf b ha hm, ?_,
      fun c hc => ?_⟩
    · rw [Memory.read_write hm, if_pos rfl]
    · rw [Memory.read_write hm, if_neg hc]
  · intro ha
    exact ⟨memRead_of_ge m (Nat.not_lt.mpr ha), memWrite_of_ge m b (Nat.not_lt.mpr ha)⟩

/-- Settles O23: from 4096 on both read as the background, so they read alike everywhere. -/
theorem memoriesThatReadAlikeAreEqual : Obligations.MemoriesThatReadAlikeAreEqual := by
  intro m m' hm hm' hread
  refine Memory.eq_of_read_from hm hm' fun a => ?_
  rcases Nat.lt_or_ge a Config.memSize with ha | ha
  · exact hread a ha
  · rw [Memory.read_of_ge ha hm, Memory.read_of_ge ha hm']

/-! ### The block store (R204) -/

/-- LD [I], Vx with its block inside memory completes and writes memory alone: V0 to Vx at I to
I + x, every other byte as before. -/
theorem exec_storeRegs_of_fits {x : Nibble} {s : State} (hm : s.mem.wf = true)
    (h : s.i.toNat + x.val < Config.memSize) :
    ∃ m, exec (.storeRegs x) s = .next ({ s.afterFetch with mem := m }.endStep false)
      ∧ m.wf = true
      ∧ (∀ k : Nibble, k ≤ x → m.read (s.i.toNat + k.val) = s.reg k)
      ∧ ∀ a, a < s.i.toNat ∨ s.i.toNat + x.val < a → m.read a = s.mem.read a := by
  have hlen := length_regsUpTo s x
  obtain ⟨m, e, wf, hread⟩ := storeAtI_ok (bs := regsUpTo s x) (t := s.afterFetch) hm
    (by rw [hlen]; exact h)
  refine ⟨m, runChecked_of_ok e, wf, fun k hk => ?_, fun a ha => ?_⟩
  · have hkl : k.val < (regsUpTo s x).length := by rw [hlen]; exact Nat.lt_succ_of_le hk
    rw [hread]
    simp [hkl, getElem_regsUpTo]
  · rw [hread]
    rcases ha with ha | ha
    · simp [Nat.not_le.mpr ha]
    · simp [List.getElem?_eq_none (show (regsUpTo s x).length ≤ a - s.i.toNat by omega)]

/-- Settles O43: the bytes at I and I + 1 after the store are V0 and V1. -/
theorem fetchSeesStoredBytes : Obligations.FetchSeesStoredBytes := by
  intro x s hm hx hfit
  obtain ⟨m, hexec, -, hstored, -⟩ := exec_storeRegs_of_fits hm hfit
  refine ⟨_, hexec, ?_⟩
  have hpc : s.i.toNat + 1 < Config.memSize := by simp only [Config.memSize]; omega
  have h0 : m.read s.i.toNat = s.reg 0 := hstored 0 (Fin.zero_le x)
  have h1 : m.read (s.i.toNat + 1) = s.reg 1 := hstored 1 hx
  rw [fetchWord_of_lt hpc, ← wordOfBytes_eq_ofNat, ← h0, ← h1]
  rfl

end Sys2Proof.Machine

namespace Sys2Proof

/-! ### The words of an instruction (R94, R96) -/

/-- `IsWordOf w i`: `w` is the encoding of `i`, or differs from it in the don't-care y of SHR
or SHL (R96). -/
inductive IsWordOf : Word → Instr → Prop where
  | encoded (i : Instr) : IsWordOf (encode i) i
  | shr (x y : Nibble) : IsWordOf (formatRR 0x8 x y 0x6) (.shr x)
  | shl (x y : Nibble) : IsWordOf (formatRR 0x8 x y 0xE) (.shl x)

namespace IsWordOf

/-! A word is of an instruction when the word its own fields make in the format is. -/

theorem of_formatA {w : Word} {op : BitVec 4} {i : Instr}
    (h : IsWordOf (formatA op (fieldNnn w)) i) (hop : (fieldOp w).toNat = op.toNat) :
    IsWordOf w i := by
  rwa [← BitVec.eq_of_toNat_eq hop, formatA_fields] at h

theorem of_formatRK {w : Word} {op : BitVec 4} {i : Instr}
    (h : IsWordOf (formatRK op (fieldX w) (fieldKk w)) i) (hop : (fieldOp w).toNat = op.toNat) :
    IsWordOf w i := by
  rwa [← BitVec.eq_of_toNat_eq hop, formatRK_fields] at h

/-- With kk as the selector (format RS). -/
theorem of_formatRK_selector {w : Word} {op : BitVec 4} {kk : Byte} {i : Instr}
    (h : IsWordOf (formatRK op (fieldX w) kk) i) (hop : (fieldOp w).toNat = op.toNat)
    (hkk : fieldKk w = kk) : IsWordOf w i := by
  rw [← hkk] at h
  exact of_formatRK h hop

theorem of_formatRR {w : Word} {op n : BitVec 4} {i : Instr}
    (h : IsWordOf (formatRR op (fieldX w) (fieldY w) n) i)
    (hop : (fieldOp w).toNat = op.toNat) (hn : (fieldN w).val = n.toNat) : IsWordOf w i := by
  have hn' : nibbleBits (fieldN w) = n := BitVec.eq_of_toNat_eq hn
  rwa [← BitVec.eq_of_toNat_eq hop, ← hn', formatRR_fields] at h

/-- Whatever y is, the word keeps op, x and n of the encoding. -/
theorem fields_eq {w : Word} {i : Instr} (h : IsWordOf w i) :
    fieldOp w = fieldOp (encode i) ∧ fieldX w = fieldX (encode i)
      ∧ fieldN w = fieldN (encode i) := by
  cases h with
  | encoded => exact ⟨rfl, rfl, rfl⟩
  | shr x y | shl x y => simp [encode]

theorem eq_encode_or_shift {w : Word} {i : Instr} (h : IsWordOf w i) :
    w = encode i ∨ ∃ x, i = .shr x ∨ i = .shl x := by
  cases h with
  | encoded => exact .inl rfl
  | shr x y => exact .inr ⟨x, .inl rfl⟩
  | shl x y => exact .inr ⟨x, .inr rfl⟩

end IsWordOf

open Laws in
/-- Every encoding is a word of the opcode map (R94, R95). -/
theorem legalWord_encode : ∀ i : Instr, legalWord (encode i) = true
  | .cls => EncodesInTable.cls
  | .ret => EncodesInTable.ret
  | .jp nnn => EncodesInTable.jp nnn
  | .call nnn => EncodesInTable.call nnn
  | .seImm x kk => EncodesInTable.seImm x kk
  | .sneImm x kk => EncodesInTable.sneImm x kk
  | .seReg x y => EncodesInTable.seReg x y
  | .ldImm x kk => EncodesInTable.ldImm x kk
  | .addImm x kk => EncodesInTable.addImm x kk
  | .ldReg x y => EncodesInTable.ldReg x y
  | .orReg x y => EncodesInTable.orReg x y
  | .andReg x y => EncodesInTable.andReg x y
  | .xorReg x y => EncodesInTable.xorReg x y
  | .addReg x y => EncodesInTable.addReg x y
  | .subReg x y => EncodesInTable.subReg x y
  | .shr x => EncodesInTable.shr x
  | .subnReg x y => EncodesInTable.subnReg x y
  | .shl x => EncodesInTable.shl x
  | .sneReg x y => EncodesInTable.sneReg x y
  | .ldI nnn => EncodesInTable.ldI nnn
  | .jpV0 nnn => EncodesInTable.jpV0 nnn
  | .rnd x kk => EncodesInTable.rnd x kk
  | .drw x y n => EncodesInTable.drw x y n
  | .skp x => EncodesInTable.skp x
  | .sknp x => EncodesInTable.sknp x
  | .ldVxDt x => EncodesInTable.ldVxDt x
  | .ldVxK x => EncodesInTable.ldVxK x
  | .ldDtVx x => EncodesInTable.ldDtVx x
  | .ldStVx x => EncodesInTable.ldStVx x
  | .addI x => EncodesInTable.addI x
  | .ldF x => EncodesInTable.ldF x
  | .ldB x => EncodesInTable.ldB x
  | .storeRegs x => EncodesInTable.storeRegs x
  | .loadRegs x => EncodesInTable.loadRegs x

theorem IsWordOf.legalWord {w : Word} {i : Instr} (h : IsWordOf w i) : legalWord w = true := by
  cases h with
  | encoded => exact legalWord_encode i
  | shr x y =>
    exact legalWord_of_hits (by decide) ((hits_family_n _ 0x8 0x6 "SHR_Vx").2
      ⟨fieldOp_formatRR .., fieldN_formatRR ..⟩)
  | shl x y =>
    exact legalWord_of_hits (by decide) ((hits_family_n _ 0x8 0xE "SHL_Vx").2
      ⟨fieldOp_formatRR .., fieldN_formatRR ..⟩)

/-! ### What the decoder answers, family by family -/

/-- A right answer of the decoder for `w`: an instruction `w` is a word of, or the rejection that
names `w`. -/
def AnswersFor (w : Word) : Except DecodeError Instr → Prop
  | .ok i => IsWordOf w i
  | .error e => e = .unknownInstruction w

/-- One row of a family: its test, its instruction, the rows after it. -/
theorem AnswersFor.ite {w : Word} {c : Prop} [Decidable c] {i : Instr}
    {r : Except DecodeError Instr} (hi : c → IsWordOf w i) (hr : AnswersFor w r) :
    AnswersFor w (if c then .ok i else r) := by
  split
  · exact hi ‹c›
  · exact hr

theorem answersFor_decodeFamily0 (w : Word) : AnswersFor w (decodeFamily0 w) :=
  .ite (fun h => h ▸ .encoded .cls) <| .ite (fun h => h ▸ .encoded .ret) rfl

theorem answersFor_decodeFamily8 {w : Word} (hop : (fieldOp w).toNat = 0x8) :
    AnswersFor w (decodeFamily8 w) := by
  unfold decodeFamily8
  split <;> rename_i hn
  · exact .of_formatRR (.encoded (.ldReg _ _)) hop hn
  · exact .of_formatRR (.encoded (.orReg _ _)) hop hn
  · exact .of_formatRR (.encoded (.andReg _ _)) hop hn
  · exact .of_formatRR (.encoded (.xorReg _ _)) hop hn
  · exact .of_formatRR (.encoded (.addReg _ _)) hop hn
  · exact .of_formatRR (.encoded (.subReg _ _)) hop hn
  · exact .of_formatRR (.shr _ _) hop hn
  · exact .of_formatRR (.encoded (.subnReg _ _)) hop hn
  · exact .of_formatRR (.shl _ _) hop hn
  · rfl

theorem answersFor_decodeFamilyE {w : Word} (hop : (fieldOp w).toNat = 0xE) :
    AnswersFor w (decodeFamilyE w) :=
  .ite (.of_formatRK_selector (.encoded (.skp _)) hop) <|
  .ite (.of_formatRK_selector (.encoded (.sknp _)) hop) rfl

theorem answersFor_decodeFamilyF {w : Word} (hop : (fieldOp w).toNat = 0xF) :
    AnswersFor w (decodeFamilyF w) :=
  .ite (.of_formatRK_selector (.encoded (.ldVxDt _)) hop) <|
  .ite (.of_formatRK_selector (.encoded (.ldVxK _)) hop) <|
  .ite (.of_formatRK_selector (.encoded (.ldDtVx _)) hop) <|
  .ite (.of_formatRK_selector (.encoded (.ldStVx _)) hop) <|
  .ite (.of_formatRK_selector (.encoded (.addI _)) hop) <|
  .ite (.of_formatRK_selector (.encoded (.ldF _)) hop) <|
  .ite (.of_formatRK_selector (.encoded (.ldB _)) hop) <|
  .ite (.of_formatRK_selector (.encoded (.storeRegs _)) hop) <|
  .ite (.of_formatRK_selector (.encoded (.loadRegs _)) hop) rfl

/-- The decoder answers every word with an instruction it is a word of, or with the rejection that
names it (R94, R95). -/
theorem answersFor_decodeWord (w : Word) : AnswersFor w (decodeWord w) := by
  unfold decodeWord
  split <;> rename_i hop
  · exact answersFor_decodeFamily0 w
  · exact .of_formatA (.encoded (.jp _)) hop
  · exact .of_formatA (.encoded (.call _)) hop
  · exact .of_formatRK (.encoded (.seImm _ _)) hop
  · exact .of_formatRK (.encoded (.sneImm _ _)) hop
  · exact .ite (.of_formatRR (.encoded (.seReg _ _)) hop) rfl
  · exact .of_formatRK (.encoded (.ldImm _ _)) hop
  · exact .of_formatRK (.encoded (.addImm _ _)) hop
  · exact answersFor_decodeFamily8 hop
  · exact .ite (.of_formatRR (.encoded (.sneReg _ _)) hop) rfl
  · exact .of_formatA (.encoded (.ldI _)) hop
  · exact .of_formatA (.encoded (.jpV0 _)) hop
  · exact .of_formatRK (.encoded (.rnd _ _)) hop
  · exact .of_formatRR (.encoded (.drw _ _ _)) hop rfl
  · exact answersFor_decodeFamilyE hop
  · exact answersFor_decodeFamilyF hop
  · rfl

theorem isWordOf_of_decodeWord {w : Word} {i : Instr} (h : decodeWord w = .ok i) :
    IsWordOf w i := by
  have answer := answersFor_decodeWord w
  rwa [h] at answer

theorem decodeWord_of_not_legalWord {w : Word} (h : legalWord w = false) :
    decodeWord w = .error (.unknownInstruction w) := by
  have answer := answersFor_decodeWord w
  cases hd : decodeWord w with
  | ok i =>
    rw [(isWordOf_of_decodeWord hd).legalWord] at h
    cases h
  | error e =>
    rw [hd] at answer
    exact congrArg _ answer

/-! ### No word is of two rows (R94) -/

/-- Two rows contradict each other when they ask for different values of bits both name. -/
def OpRow.clashes (r r' : OpRow) : Prop := r.pattern &&& r'.mask ≠ r'.pattern &&& r.mask

theorem OpRow.not_clashes_of_hits {r r' : OpRow} {w : Word} (h : r.hits w = true)
    (h' : r'.hits w = true) : ¬ r.clashes r' := by
  rw [OpRow.hits_iff] at h h'
  refine not_not_intro ?_
  calc r.pattern &&& r'.mask = (w &&& r.mask) &&& r'.mask := by rw [h]
    _ = (w &&& r'.mask) &&& r.mask := by
      rw [BitVec.and_assoc, BitVec.and_comm r.mask, ← BitVec.and_assoc]
    _ = r'.pattern &&& r.mask := by rw [h']

theorem OpRow.clashes_symm : Std.Symm OpRow.clashes := ⟨fun _ _ => Ne.symm⟩

theorem opcodeTable_pairwise_clashes : opcodeTable.Pairwise OpRow.clashes := by
  unfold OpRow.clashes
  decide

/-- Settles O2: legal words row by row, the others by what the decoder can answer, and two rows of
the map always contradict each other. -/
theorem decoderAcceptsExactlyTheOpcodeMap : Obligations.DecoderAcceptsExactlyTheOpcodeMap := by
  intro w
  refine ⟨decodes_of_legalWord, decodeWord_of_not_legalWord, fun r hr r' hr' h h' => ?_⟩
  have := OpRow.clashes_symm
  by_contra hne
  exact OpRow.not_clashes_of_hits h h' (opcodeTable_pairwise_clashes.forall hr hr' hne)

/-- Settles O3: a decoded word keeps op, x and n of the encoding, and all of it but for a shift. -/
theorem onlyTheShiftsHaveDontCareBits : Obligations.OnlyTheShiftsHaveDontCareBits := by
  refine ⟨fun x y => by simp [decodeWord, decodeFamily8], fun w w' i h h' => ?_⟩
  have hw := isWordOf_of_decodeWord h
  have hw' := isWordOf_of_decodeWord h'
  obtain ⟨op, x, n⟩ := hw.fields_eq
  obtain ⟨op', x', n'⟩ := hw'.fields_eq
  have fields : fieldOp w = fieldOp w' ∧ fieldX w = fieldX w' ∧ fieldN w = fieldN w' :=
    ⟨op.trans op'.symm, x.trans x'.symm, n.trans n'.symm⟩
  rcases hw.eq_encode_or_shift with e | shift
  · rcases hw'.eq_encode_or_shift with e' | shift
    · exact .inl (e.trans e'.symm)
    · exact .inr ⟨shift, fields⟩
  · exact .inr ⟨shift, fields⟩

/-- Settles O4: field by field. -/
theorem fieldsAreTheBitSlicesOfTheWord : Obligations.FieldsAreTheBitSlicesOfTheWord :=
  fun w => ⟨fieldOp_toNat w, fieldX_val w, fieldY_val w, fieldN_val w, fieldKk_toNat w,
    fieldNnn_toNat w⟩

/-- Settles O5: twelve fixed words, each decoded by evaluation. -/
theorem wordsWrittenFromTheSpecDecode : Obligations.WordsWrittenFromTheSpecDecode := by
  unfold Obligations.WordsWrittenFromTheSpecDecode
  decide

end Sys2Proof

namespace Sys2Proof.Machine

/-- A STEP whose word the decoder rejects leaves the state of R272 with the fetch's advance of PC
kept (R126). -/
theorem step_of_decodeWord_error {s : State} {w : Word} {e : DecodeError} (hr : s.run = .running)
    (hf : fetchWord s = .ok w) (hd : decodeWord w = .error e) :
    step s = .next (haltedAfterFetch ⟨.unknownInstruction, w.toNat⟩ s) := by
  simp only [step, hr, hf, hd]
  rfl

/-- Settles O8: the fetch gives the word at PC, and the decoder rejects it. -/
theorem illegalWordHaltsTheStep : Obligations.IllegalWordHaltsTheStep := by
  intro s w hrun hpc hw hl
  have hword : wordOfBytes (s.mem.read s.pc.toNat) (s.mem.read (s.pc.toNat + 1)) = w :=
    BitVec.eq_of_toNat_eq ((wordOfBytes_toNat ..).trans hw.symm)
  have hf : fetchWord s = .ok w := hword ▸ fetchWord_of_lt hpc
  exact step_of_decodeWord_error hrun hf (decodeWord_of_not_legalWord hl)

end Sys2Proof.Machine

namespace Sys2Proof.Machine

/-! ### The end of a step (R128, R129) -/

/-- The run state of a completed STEP is no halt. -/
theorem isHalted_eq_false_of_completed {i : Instr} {s t : State} (hs : s.run = .running)
    (ht : t.run = s.run ∨ ∃ x, i = .ldVxK x ∧ t.run = .awaitKey x) : t.isHalted = false := by
  rcases ht with ht | ⟨x, -, ht⟩
  · simp only [State.isHalted, ht, hs]
  · simp only [State.isHalted, ht]

/-- Settles O12: the executed instruction is the decoded one, and it completes or halts. -/
theorem completedStepReleasesKeysAndFlagsDraws :
    Obligations.CompletedStepReleasesKeysAndFlagsDraws := by
  intro s t w i hf hd h
  obtain ⟨hrun, -⟩ := step_cases h
  rw [step_of_exec hrun hf hd] at h
  rcases exec_completes_or_halts i s t h with ⟨hr, hdraw, hkeys⟩ | ⟨why, rfl, -⟩
  · refine ⟨fun _ => ⟨fun k => by simp [State.key, hkeys], hdraw⟩, fun hhalt => ?_⟩
    rw [isHalted_eq_false_of_completed hrun hr] at hhalt
    cases hhalt
  · exact ⟨nofun, fun _ => rfl⟩

/-! ### The events of a step (R130, R275) -/

theorem State.sp_eq_full_iff (s : State) : s.sp = 15 ↔ ¬ s.depth.val < 16 := by
  simp only [State.sp]
  omega

theorem State.sp_eq_empty_iff (s : State) : s.sp = -1 ↔ ¬ 0 < s.depth.val := by
  simp only [State.sp]
  omega

/-- With the events emptied by the fetch, a push raises only the overflow of a full stack (R140). -/
@[simp] theorem State.events_push_afterFetch (s : State) (a : Word) :
    (s.afterFetch.push a).events = if s.sp = 15 then [.stackOverflow] else [] := by
  by_cases hd : s.depth.val < 16
  · simp [State.push_of_lt (s := s.afterFetch) a hd, State.sp_eq_full_iff, hd]
  · simp [State.push_of_full (s := s.afterFetch) a hd, State.sp_eq_full_iff, hd]

/-- With the events emptied by the fetch, a pop raises only the underflow of an empty stack
(R141). -/
@[simp] theorem State.events_popped_afterFetch (s : State) :
    s.afterFetch.popped.events = if s.sp = -1 then [.stackUnderflow] else [] := by
  by_cases hd : 0 < s.depth.val
  · simp [State.popped_of_pos (s := s.afterFetch) hd, State.sp_eq_empty_iff, hd]
  · simp [State.popped_of_empty (s := s.afterFetch) hd, State.sp_eq_empty_iff, hd]

/-- The events of an executed instruction: those of the push of CALL and the pop of RET, and none
for any other instruction, halting or not. -/
theorem exec_events {i : Instr} {s t : State} (h : exec i s = .next t) :
    (t.events = [.stackOverflow] ∧ s.sp = 15 ∧ ∃ nnn, i = .call nnn)
    ∨ (t.events = [.stackUnderflow] ∧ s.sp = -1 ∧ i = .ret)
    ∨ (t.events = [] ∧ ¬ (s.sp = 15 ∧ ∃ nnn, i = .call nnn) ∧ ¬ (s.sp = -1 ∧ i = .ret)) := by
  cases i with
  | call nnn =>
    cases h
    by_cases hsp : s.sp = 15 <;> simp [hsp]
  | ret =>
    cases h
    by_cases hsp : s.sp = -1 <;> simp [hsp]
  | _ => simpa using (exec_frame h).events

/-- Settles O13: a halt of the fetch or of decode raises nothing, and after those the instruction
executed is the only one the fetched word decodes to. -/
theorem eventsHoldWhatTheLastStepRaised : Obligations.EventsHoldWhatTheLastStepRaised := by
  intro s t h
  obtain ⟨-, ⟨why, hf, rfl⟩ | ⟨w, e, hf, hd, rfl⟩ | ⟨w, i, hf, hd, hx⟩⟩ := step_cases h
  · exact .inr (.inr ⟨rfl, by simp [hf], by simp [hf]⟩)
  · exact .inr (.inr ⟨rfl, by simp [hf, hd], by simp [hf, hd]⟩)
  · simpa [hf, hd] using exec_events hx

/-! ### The idle loop (R133) -/

/-- JP writes PC, and nothing else but what every completed step writes (R145). -/
theorem exec_jp (nnn : Addr12) (s : State) : exec (.jp nnn) s = .next { s with
    pc := zext16 nnn, keys := Vector.replicate 16 false, drawFlag := false, events := [] } := rfl

/-- A word that reads as 0x1000 + nnn is JP nnn (R94). -/
theorem decodeWord_jp {w : Word} {nnn : Addr12} (h : w.toNat = 0x1000 + nnn.toNat) :
    decodeWord w = .ok (.jp nnn) := by
  have hop : (fieldOp w).toNat = 0x1 := by rw [fieldOp_toNat]; omega
  have hnnn : fieldNnn w = nnn := BitVec.eq_of_toNat_eq (by rw [fieldNnn_toNat]; omega)
  simp [decodeWord, hop, hnnn]

/-- Settles O57: the word at PC is JP to PC, so the PC it writes is the one it was fetched from. -/
theorem jumpToItselfIsAnIdleLoop : Obligations.JumpToItselfIsAnIdleLoop := by
  intro s nnn hrun hpc hlt hhi hlo
  have hf := fetchWord_of_lt (s := s) (by rw [hpc]; exact hlt)
  have hd : decodeWord (wordOfBytes (s.mem.read s.pc.toNat) (s.mem.read (s.pc.toNat + 1)))
      = .ok (.jp nnn) := decodeWord_jp (by rw [wordOfBytes_toNat, hpc, hhi, hlo]; omega)
  have hself : zext16 nnn = s.pc := BitVec.eq_of_toNat_eq ((zext16_toNat nnn).trans hpc.symm)
  rw [step_of_exec hrun hf hd, exec_jp, hself]

/-! ### Where STEP is not defined, and AdvancePC (R124, R131) -/

/-- Settles O9: STEP looks at the run state first. -/
theorem stepHasNoTransitionWhileWaitingOrHalted :
    Obligations.StepHasNoTransitionWhileWaitingOrHalted :=
  fun _ => ⟨fun _ hr => by simp only [step, hr], fun _ _ hr => by simp only [step, hr]⟩

theorem advancedPc_toNat_of_inside {pc : Word} (h : 0x200 ≤ pc.toNat) (h' : pc.toNat < 0xFFF) :
    (advancedPc pc).toNat = pc.toNat + 2 := by
  rw [advancedPc, if_pos ⟨h, h'⟩, BitVec.toNat_ofNat, Nat.mod_eq_of_lt (by omega)]

theorem advancedPc_of_outside {pc : Word} (h : pc.toNat < 0x200 ∨ 0xFFF ≤ pc.toNat) :
    advancedPc pc = 0x200 :=
  if_neg (by omega)

/-- Settles O10: the two ranges, and the corner values by evaluation. -/
theorem advancePcAddsTwoInsideTheProgramRegion :
    Obligations.AdvancePcAddsTwoInsideTheProgramRegion := by
  refine ⟨fun s => ⟨advancedPc_toNat_of_inside, advancedPc_of_outside⟩, ?_⟩
  decide

end Sys2Proof.Machine

namespace Sys2Proof

/-! ### The word of a family decodes to the instruction of its fields (R93, R94) -/

theorem decodeWord_of_formatA {w : Word} {op : BitVec 4} {i : Instr} (hop : fieldOp w = op)
    (h : encode i = formatA op (fieldNnn w)) : decodeWord w = .ok i := by
  rw [← hop, formatA_fields] at h
  exact h ▸ decodeWord_encode i

theorem decodeWord_of_formatRK {w : Word} {op : BitVec 4} {i : Instr} (hop : fieldOp w = op)
    (h : encode i = formatRK op (fieldX w) (fieldKk w)) : decodeWord w = .ok i := by
  rw [← hop, formatRK_fields] at h
  exact h ▸ decodeWord_encode i

end Sys2Proof

namespace Sys2Proof.Machine

/-! ### The frame of a completed step, one rule per operation of its execute phase

`u` is the state the execute phase has reached. -/

namespace StepKeeps

variable {s u : State} {d : Bool} {changed : List Part}

theorem afterFetch (d : Bool) (changed : List Part) (s : State) :
    StepKeeps d changed s (s.afterFetch.endStep d) :=
  ⟨fun _ _ => rfl, fun _ => rfl, fun _ => rfl, fun _ => rfl, fun _ => rfl, fun _ => ⟨rfl, rfl⟩,
    fun _ _ => rfl, fun _ _ => rfl, fun _ => rfl, fun _ => rfl, fun _ => rfl, rfl,
    s.afterFetch.key_endStep d, rfl⟩

theorem jump (h : StepKeeps d changed s (u.endStep d)) (a : Word) (hpc : .pc ∈ changed) :
    StepKeeps d changed s ((u.jump a).endStep d) :=
  { h with pc := absurd hpc }

theorem skipIf (h : StepKeeps d changed s (u.endStep d)) (c : Bool) (hpc : .pc ∈ changed) :
    StepKeeps d changed s ((u.skipIf c).endStep d) := by
  cases c with
  | false => exact h
  | true => exact { h with pc := absurd hpc }

theorem emit (h : StepKeeps d changed s (u.endStep d)) (e : Event) (he : .events ∈ changed) :
    StepKeeps d changed s ((u.emit e).endStep d) :=
  { h with events := absurd he }

theorem push_of_lt (h : StepKeeps d changed s (u.endStep d)) (a : Word)
    (hd : u.depth.val < 16) (hst : .stack ∈ changed) :
    StepKeeps d changed s ((u.push a).endStep d) := by
  rw [State.push_of_lt a hd]
  exact { h with stack := absurd hst }

theorem popped_of_pos (h : StepKeeps d changed s (u.endStep d)) (hd : 0 < u.depth.val)
    (hst : .stack ∈ changed) : StepKeeps d changed s (u.popped.endStep d) := by
  rw [State.popped_of_pos hd]
  exact { h with stack := absurd hst }

end StepKeeps

/-! ### The stack as the list of its stored addresses (R29, R30, R140, R141)

Push conses, Pop takes the head: the entries above SP, which Pop leaves in place, are not in it. -/

/-- The stored return addresses, most recent first. -/
def State.stored (s : State) : List Word := (s.stack.toList.take s.depth.val).reverse

namespace State

theorem length_stored (s : State) : s.stored.length = s.depth.val := by
  have := s.depth.isLt
  simp only [stored, List.length_reverse, List.length_take, Vector.length_toList]
  omega

theorem sp_eq_length_stored (s : State) : s.sp = s.stored.length - 1 := by
  rw [length_stored, sp]

theorem stored_push {s : State} (a : Word) (h : s.depth.val < 16) :
    (s.push a).stored = a :: s.stored := by
  rw [push_of_lt a h]
  simp [stored, List.take_add_one, List.take_set_of_le, Vector.toList_set, h]

theorem stored_of_pos {s : State} (h : 0 < s.depth.val) :
    s.stored = s.popValue :: s.popped.stored := by
  obtain ⟨n, hn⟩ := Nat.exists_eq_add_one_of_ne_zero h.ne'
  have hlt : n < 16 := by omega
  simp [popped_of_pos h, popValue_of_pos h, stored, hn, List.take_add_one, hlt]

end State

theorem stored_pushList (as : List Word) : ∀ s : State, s.depth.val + as.length ≤ 16 →
    (pushList as s).stored = as.reverse ++ s.stored := by
  induction as with
  | nil => exact fun _ _ => rfl
  | cons a as ih =>
    intro s h
    rw [List.length_cons] at h
    have hpush := State.stored_push (s := s) a (by omega)
    have hdepth : (s.push a).depth.val = s.depth.val + 1 := by
      rw [← State.length_stored, hpush, List.length_cons, State.length_stored]
    calc (pushList (a :: as) s).stored = as.reverse ++ (s.push a).stored := ih _ (by omega)
      _ = (a :: as).reverse ++ s.stored := by simp [hpush]

theorem popList_eq_take_stored (n : Nat) : ∀ s : State, n ≤ s.stored.length →
    popList n s = s.stored.take n := by
  induction n with
  | zero => exact fun _ _ => rfl
  | succ n ih =>
    intro s h
    have hstored := State.stored_of_pos (s := s) (by rw [← State.length_stored]; omega)
    rw [hstored, List.length_cons] at h
    rw [hstored, List.take_succ_cons, popList, ih _ (by omega)]

theorem stored_iterate_popped (n : Nat) : ∀ s : State, n ≤ s.stored.length →
    (State.popped^[n] s).stored = s.stored.drop n := by
  induction n with
  | zero => exact fun _ _ => rfl
  | succ n ih =>
    intro s h
    have hstored := State.stored_of_pos (s := s) (by rw [← State.length_stored]; omega)
    rw [hstored, List.length_cons] at h
    rw [hstored, List.drop_succ_cons, Function.iterate_succ_apply, ih _ (by omega)]

/-- Settles O25: on the list of stored addresses, pushing prepends the reversed addresses, and
popping takes them off again. -/
theorem pushedAddressesPopInReverse : Obligations.PushedAddressesPopInReverse := by
  intro as s hfit
  have hpush := stored_pushList as s hfit
  have hlen : as.length ≤ (pushList as s).stored.length := by simp [hpush]
  constructor
  · rw [popList_eq_take_stored _ _ hlen, hpush]
    simp
  · rw [State.sp_eq_length_stored, stored_iterate_popped _ _ hlen, hpush,
      State.sp_eq_length_stored]
    simp

/-! ### Push and Pop by where SP is (R140, R141) -/

namespace State

variable {s : State}

theorem depth_lt_of_sp_lt (h : s.sp < 15) : s.depth.val < 16 := by
  simp only [sp] at h
  omega

theorem depth_pos_of_sp_gt (h : s.sp > -1) : 0 < s.depth.val := by
  simp only [sp] at h
  omega

theorem push_of_sp_full (a : Word) (h : s.sp = 15) : s.push a = s.emit .stackOverflow :=
  push_of_full a (s.sp_eq_full_iff.1 h)

theorem popped_of_sp_empty (h : s.sp = -1) : s.popped = s.emit .stackUnderflow :=
  popped_of_empty (s.sp_eq_empty_iff.1 h)

theorem popValue_of_sp_empty (h : s.sp = -1) : s.popValue = 0x200 :=
  popValue_of_empty (s.sp_eq_empty_iff.1 h)

theorem sp_push (a : Word) (h : s.sp < 15) : (s.push a).sp = s.sp + 1 := by
  simp only [push_of_lt a (depth_lt_of_sp_lt h), sp]
  omega

theorem sp_popped (h : s.sp > -1) : s.popped.sp = s.sp - 1 := by
  have hd := depth_pos_of_sp_gt h
  simp only [popped_of_pos hd, sp]
  omega

theorem getElem_stack_push (a : Word) (h : s.sp < 15) (k : Fin 16) :
    (s.push a).stack[k] = if (k.val : Int) = s.sp + 1 then a else s.stack[k] := by
  have hk : (k.val : Int) = s.sp + 1 ↔ s.depth.val = k.val := by
    rw [sp]
    omega
  rw [push_of_lt a (depth_lt_of_sp_lt h)]
  simp [Vector.getElem_set, hk]

theorem popValue_push (a : Word) (h : s.sp < 15) : (s.push a).popValue = a := by
  have hd := depth_lt_of_sp_lt h
  simp [push_of_lt a hd, popValue]

theorem popValue_eq_getElem_stack {k : Fin 16} (h : s.sp > -1) (hk : (k.val : Int) = s.sp) :
    s.popValue = s.stack[k] := by
  have hd := depth_pos_of_sp_gt h
  have hval : s.depth.val - 1 = k.val := by
    rw [sp] at hk
    omega
  simp [popValue_of_pos hd, hval]

theorem mem_events_emit (s : State) (e : Event) : e ∈ (s.emit e).events := by
  by_cases he : e ∈ s.events <;> simp [he]

end State

/-- Settles O24: the two sides of either operation, by where SP is. -/
theorem pushAndPopFollowTheStackRules : Obligations.PushAndPopFollowTheStackRules := by
  intro s a
  refine ⟨fun h => ⟨State.sp_push a h, State.popValue_push a h, fun k hk => ?_, ?_⟩, fun h => ?_,
    fun h => ⟨State.sp_popped h, s.popped_stack, ?_, fun k => State.popValue_eq_getElem_stack h⟩,
    fun h => ⟨State.popValue_of_sp_empty h, ?_⟩⟩
  · rw [State.getElem_stack_push a h, if_neg hk]
  · rw [State.push_of_lt a (State.depth_lt_of_sp_lt h)]
  · rw [State.push_of_sp_full a h]
    exact ⟨rfl, s.mem_events_emit _⟩
  · rw [State.popped_of_pos (State.depth_pos_of_sp_gt h)]
  · rw [State.popped_of_sp_empty h]
    exact ⟨rfl, s.mem_events_emit _⟩

/-! ### Control transfer -/

theorem exec_call (nnn : Addr12) (s : State) : exec (.call nnn) s = .next
    (((s.afterFetch.push (advancedPc s.pc)).jump (zext16 nnn)).endStep false) := rfl

theorem exec_ret (s : State) :
    exec .ret s = .next ((s.afterFetch.popped.jump s.popValue).endStep false) := rfl

/-- Settles O26: the push of the advanced PC, stored or dropped, and then the jump. -/
theorem callPushesTheAdvancedPcAndJumps : Obligations.CallPushesTheAdvancedPcAndJumps := by
  refine ⟨fun w hop => decodeWord_of_formatA hop rfl, fun nnn s => ⟨fun h => ?_, fun h => ?_⟩⟩
  · exact ⟨_, exec_call nnn s, zext16_toNat nnn, State.sp_push (s := s.afterFetch) _ h,
      State.getElem_stack_push (s := s.afterFetch) _ h,
      ((StepKeeps.afterFetch ..).push_of_lt _ (State.depth_lt_of_sp_lt h) (by simp)).jump _
        (by simp)⟩
  · have hfull := State.push_of_sp_full (s := s.afterFetch) (advancedPc s.pc) h
    refine ⟨_, exec_call nnn s, zext16_toNat nnn, ?_, ?_⟩ <;> rw [hfull]
    · rfl
    · exact ((StepKeeps.afterFetch ..).emit _ (by simp)).jump _ (by simp)

/-- Settles O27: the pop, of an entry or of the empty stack, and then the jump. -/
theorem retPopsPc : Obligations.RetPopsPc := by
  refine ⟨decodeWord_encode .ret, fun s => ⟨fun h => ?_, fun h => ?_⟩⟩
  · exact ⟨_, exec_ret s, fun k => State.popValue_eq_getElem_stack h,
      State.sp_popped (s := s.afterFetch) h, s.afterFetch.popped_stack,
      ((StepKeeps.afterFetch ..).popped_of_pos (State.depth_pos_of_sp_gt h) (by simp)).jump _
        (by simp)⟩
  · have hempty := State.popped_of_sp_empty (s := s.afterFetch) h
    refine ⟨_, exec_ret s, State.popValue_of_sp_empty h, ?_, ?_⟩ <;> rw [hempty]
    · rfl
    · exact ((StepKeeps.afterFetch ..).emit _ (by simp)).jump _ (by simp)

/-- Settles O28: each jump is one write of PC after the fetch. -/
theorem jumpsSetPc : Obligations.JumpsSetPc := by
  refine ⟨fun w hop => decodeWord_of_formatA hop rfl, fun w hop => decodeWord_of_formatA hop rfl,
    fun nnn s => ⟨?_, ?_⟩⟩
  · exact ⟨_, rfl, zext16_toNat nnn, (StepKeeps.afterFetch ..).jump _ (by simp)⟩
  · exact ⟨_, rfl, offsetTarget_toNat nnn (s.reg 0), (StepKeeps.afterFetch ..).jump _ (by simp)⟩

/-- An instruction whose execute phase is a skip advances PC once more if it is taken, and writes
PC alone (R143). -/
theorem skip_of_exec {i : Instr} {s : State} {c : Bool}
    (h : exec i s = .next ((s.afterFetch.skipIf c).endStep false)) :
    ∃ t, exec i s = .next t
      ∧ t.pc = (if c then advancedPc (advancedPc s.pc) else advancedPc s.pc)
      ∧ StepKeeps false [.pc] s t :=
  ⟨_, h, s.afterFetch.skipIf_pc c, (StepKeeps.afterFetch ..).skipIf c (by simp)⟩

/-- Settles O29: both are skips, on the comparison of V[x] with kk. -/
theorem skipsOnImmediateAdvancePcTwice : Obligations.SkipsOnImmediateAdvancePcTwice := by
  refine ⟨fun w hop => decodeWord_of_formatRK hop rfl, fun w hop => decodeWord_of_formatRK hop rfl,
    fun x kk s => ⟨?_, ?_⟩⟩
  · simpa using skip_of_exec (i := .seImm x kk) (s := s) (c := s.reg x == kk) rfl
  · simpa using skip_of_exec (i := .sneImm x kk) (s := s) (c := s.reg x != kk) rfl

/-- Settles O30: both are skips, on the comparison of V[x] with V[y]; n = 0 is the only selector of
their families. -/
theorem skipsOnRegistersAdvancePcTwice : Obligations.SkipsOnRegistersAdvancePcTwice := by
  refine ⟨fun w hop => ?_, fun w hop => ?_, fun x y s => ⟨?_, ?_⟩⟩
  · simp [decodeWord, hop]
  · simp [decodeWord, hop]
  · simpa using skip_of_exec (i := .seReg x y) (s := s) (c := s.reg x == s.reg y) rfl
  · simpa using skip_of_exec (i := .sneReg x y) (s := s) (c := s.reg x != s.reg y) rfl

end Sys2Proof.Machine

namespace Sys2Proof

/-- The converse of `isWordOf_of_decodeWord`. -/
theorem IsWordOf.decodeWord_eq {w : Word} {i : Instr} (h : IsWordOf w i) :
    decodeWord w = .ok i := by
  cases h with
  | encoded => exact decodeWord_encode i
  | shr x y | shl x y => simp [decodeWord, decodeFamily8]

theorem decodeWord_of_formatRR {w : Word} {op n : BitVec 4} {i : Instr} (hop : fieldOp w = op)
    (hn : fieldN w = n.toFin) (h : IsWordOf (formatRR op (fieldX w) (fieldY w) n) i) :
    decodeWord w = .ok i :=
  (h.of_formatRR (congrArg BitVec.toNat hop) (congrArg Fin.val hn)).decodeWord_eq

end Sys2Proof

namespace Sys2Proof.Machine

/-! ### Register loads and the ALU -/

namespace StepKeeps

variable {s u : State} {d : Bool} {changed : List Part} {x : Nibble}

theorem setReg (h : StepKeeps d changed s (u.endStep d)) (b : Byte) (hx : .reg x ∈ changed) :
    StepKeeps d changed s ((u.setReg x b).endStep d) := by
  refine { h with reg := fun r hr => ?_ }
  have hne : r ≠ x := by rintro rfl; exact hr hx
  exact (State.reg_setReg_ne b hne).trans (h.reg r hr)

theorem writeFlagThenResult (h : StepKeeps d changed s (u.endStep d)) (flag result : Byte)
    (hx : .reg x ∈ changed) (hvf : .reg vf ∈ changed) :
    StepKeeps d changed s ((u.writeFlagThenResult x flag result).endStep d) :=
  (h.setReg flag hvf).setReg result hx

theorem setDraws (h : StepKeeps d changed s (u.endStep d)) (n : Nat) (hn : .draws ∈ changed) :
    StepKeeps d changed s ({ u with draws := n }.endStep d) :=
  { h with draws := absurd hn }

end StepKeeps

section

variable {i : Instr} {s : State} {x : Nibble}

/-- An instruction whose execute phase writes V[x] alone, with no flag (R171 to R176). -/
theorem destination_of_exec {b : Byte}
    (h : exec i s = .next ((s.afterFetch.setReg x b).endStep false)) :
    ∃ t, exec i s = .next t ∧ t.reg x = b ∧ StepKeeps false [.reg x] s t :=
  ⟨_, h, State.reg_setReg_same .., (StepKeeps.afterFetch ..).setReg b (by simp)⟩

/-- An instruction whose execute phase writes the flag and then V[x]: the flag is seen in VF
unless x = F, where the result replaces it (R170). -/
theorem flagAndDestination_of_exec {flag result : Byte}
    (h : exec i s = .next ((s.afterFetch.writeFlagThenResult x flag result).endStep false)) :
    ∃ t, exec i s = .next t ∧ t.reg x = result ∧ (x ≠ vf → t.reg vf = flag)
      ∧ StepKeeps false [.reg x, .reg vf] s t := by
  refine ⟨_, h, ?_, fun hx => ?_,
    (StepKeeps.afterFetch ..).writeFlagThenResult flag result (by simp) (by simp)⟩
  · simp [State.reg_writeFlagThenResult]
  · simp [State.reg_writeFlagThenResult, hx.symm]

end

/-- Settles O31: each writes V[x] alone, the immediate or the sum. -/
theorem immediateFormsWriteOnlyVx : Obligations.ImmediateFormsWriteOnlyVx := by
  refine ⟨fun w hop => decodeWord_of_formatRK hop rfl, fun w hop => decodeWord_of_formatRK hop rfl,
    fun x kk s => ⟨destination_of_exec rfl, ?_⟩⟩
  obtain ⟨t, ht, hx, keeps⟩ :=
    destination_of_exec (i := .addImm x kk) (s := s) (b := sumByte (s.reg x) kk) rfl
  exact ⟨t, ht, hx ▸ sumByte_toNat .., keeps⟩

/-- Settles O32: each writes V[x] alone, V[y] or the bitwise operation on the old values. -/
theorem copyAndLogicWriteOnlyVx : Obligations.CopyAndLogicWriteOnlyVx := by
  refine ⟨fun w hop => ⟨?_, ?_, ?_, ?_⟩, fun x y s => ⟨destination_of_exec rfl, ?_, ?_, ?_⟩⟩
  · exact fun hn => decodeWord_of_formatRR hop hn (.encoded (.ldReg _ _))
  · exact fun hn => decodeWord_of_formatRR hop hn (.encoded (.orReg _ _))
  · exact fun hn => decodeWord_of_formatRR hop hn (.encoded (.andReg _ _))
  · exact fun hn => decodeWord_of_formatRR hop hn (.encoded (.xorReg _ _))
  · obtain ⟨t, ht, hx, keeps⟩ :=
      destination_of_exec (i := .orReg x y) (s := s) (b := s.reg x ||| s.reg y) rfl
    exact ⟨t, ht, fun _ => hx ▸ BitVec.getLsbD_or, keeps⟩
  · obtain ⟨t, ht, hx, keeps⟩ :=
      destination_of_exec (i := .andReg x y) (s := s) (b := s.reg x &&& s.reg y) rfl
    exact ⟨t, ht, fun _ => hx ▸ BitVec.getLsbD_and, keeps⟩
  · obtain ⟨t, ht, hx, keeps⟩ :=
      destination_of_exec (i := .xorReg x y) (s := s) (b := s.reg x ^^^ s.reg y) rfl
    exact ⟨t, ht, fun _ => hx ▸ BitVec.getLsbD_xor, keeps⟩

/-- Settles O33: the carry to VF, then the sum to V[x]. -/
theorem addRegistersWritesSumAndCarry : Obligations.AddRegistersWritesSumAndCarry := by
  refine ⟨fun w hop hn => decodeWord_of_formatRR hop hn (.encoded (.addReg _ _)), fun x y s => ?_⟩
  obtain ⟨t, ht, hx, hvf, keeps⟩ := flagAndDestination_of_exec (i := .addReg x y) (s := s)
    (flag := carryFlag (s.reg x) (s.reg y)) (result := sumByte (s.reg x) (s.reg y)) rfl
  exact ⟨t, ht, hx ▸ sumByte_toNat .., fun ne => (hvf ne).trans (carryFlag_eq ..), keeps⟩

/-- An instruction that subtracts `b` from `a` into V[x], the strict not-borrow into VF (R178,
R180). -/
theorem difference_of_exec {i : Instr} {s : State} {x : Nibble} {a b : Byte}
    (h : exec i s = .next ((s.afterFetch.writeFlagThenResult x
      (notBorrowFlag a b) (differenceByte a b)).endStep false)) :
    ∃ t, exec i s = .next t
      ∧ ((t.reg x).toNat : Int) = (a.toNat - b.toNat : Int) % 256
      ∧ (x ≠ vf → t.reg vf = if a.toNat > b.toNat then 1 else 0)
      ∧ StepKeeps false [.reg x, .reg vf] s t := by
  obtain ⟨t, ht, hx, hvf, keeps⟩ := flagAndDestination_of_exec h
  exact ⟨t, ht, hx ▸ differenceByte_toNat .., fun ne => (hvf ne).trans (notBorrowFlag_eq ..), keeps⟩

/-- Settles O34: one subtraction, with its operands in either order. -/
theorem subtractionsWriteDifferenceAndNotBorrow :
    Obligations.SubtractionsWriteDifferenceAndNotBorrow :=
  ⟨fun _ hop hn => decodeWord_of_formatRR hop hn (.encoded (.subReg _ _)),
    fun _ hop hn => decodeWord_of_formatRR hop hn (.encoded (.subnReg _ _)),
    fun _ _ _ => ⟨difference_of_exec rfl, difference_of_exec rfl⟩⟩

/-- Settles O35: y is don't-care to the decoder; the bit shifted out to VF, then the shifted value
to V[x]. -/
theorem shiftsWriteVxAndTheBitShiftedOut : Obligations.ShiftsWriteVxAndTheBitShiftedOut := by
  refine ⟨fun w hop hn => decodeWord_of_formatRR hop hn (.shr _ _),
    fun w hop hn => decodeWord_of_formatRR hop hn (.shl _ _), fun x s => ⟨?_, ?_⟩⟩
  · obtain ⟨t, ht, hx, hvf, keeps⟩ := flagAndDestination_of_exec (i := .shr x) (s := s)
      (flag := shiftedOutLow (s.reg x)) (result := halfByte (s.reg x)) rfl
    exact ⟨t, ht, hx ▸ halfByte_toNat _, fun ne => hvf ne ▸ shiftedOutLow_toNat _, keeps⟩
  · obtain ⟨t, ht, hx, hvf, keeps⟩ := flagAndDestination_of_exec (i := .shl x) (s := s)
      (flag := shiftedOutHigh (s.reg x)) (result := doubleByte (s.reg x)) rfl
    exact ⟨t, ht, hx ▸ doubleByte_toNat _, fun ne => hvf ne ▸ shiftedOutHigh_toNat _, keeps⟩

theorem exec_rnd (x : Nibble) (kk : Byte) (s : State) : exec (.rnd x kk) s = .next
    ({ s.afterFetch.setReg x (Config.freeByte s.draws &&& kk) with
      draws := s.draws + 1 }.endStep false) := rfl

/-- Settles O36: the write of V[x] and the advance of the draw counter, whatever byte is drawn. -/
theorem rndWritesAFreshDrawMasked : Obligations.RndWritesAFreshDrawMasked := by
  refine ⟨fun w hop => decodeWord_of_formatRK hop rfl, fun x kk s => ?_⟩
  refine ⟨_, exec_rnd x kk s, fun b => ?_, rfl,
    ((StepKeeps.afterFetch ..).setReg _ (by simp)).setDraws _ (by simp)⟩
  calc ((s.setReg x (Config.freeByte s.draws &&& kk)).reg x).getLsbD b
      = (Config.freeByte s.draws &&& kk).getLsbD b := by rw [State.reg_setReg_same]
    _ = ((Config.freeByte s.draws).getLsbD b && kk.getLsbD b) := BitVec.getLsbD_and

end Sys2Proof.Machine

namespace Sys2Proof

/-- With kk as the selector (format RS). -/
theorem decodeWord_of_formatRK_selector {w : Word} {op : BitVec 4} {kk : Byte} {i : Instr}
    (hop : fieldOp w = op) (hkk : fieldKk w = kk) (h : encode i = formatRK op (fieldX w) kk) :
    decodeWord w = .ok i :=
  decodeWord_of_formatRK hop (hkk ▸ h)

end Sys2Proof

namespace Sys2Proof.Machine

/-! ### The index register and memory -/

namespace StepKeeps

variable {s u : State} {d : Bool} {changed : List Part}

theorem setIndex (h : StepKeeps d changed s (u.endStep d)) (a : Word) (hi : .i ∈ changed) :
    StepKeeps d changed s ({ u with i := a }.endStep d) :=
  { h with i := absurd hi }

theorem setMem (h : StepKeeps d changed s (u.endStep d)) (m : Memory) (hm : .mem ∈ changed) :
    StepKeeps d changed s ({ u with mem := m }.endStep d) :=
  { h with mem := absurd hm }

theorem setRegsFrom_zero (h : StepKeeps d changed s (u.endStep d)) (bs : List Byte)
    (hbs : ∀ r : Nibble, r.val < bs.length → .reg r ∈ changed) :
    StepKeeps d changed s ((setRegsFrom 0 bs u).endStep d) := by
  rw [setRegsFrom_eq_v]
  refine { h with reg := fun r hr => ?_ }
  have hlen : bs.length ≤ r.val := Nat.le_of_not_lt fun hlt => hr (hbs r hlt)
  calc (setRegsFrom 0 bs u).reg r
      = u.reg r := by simp [reg_setRegsFrom, hlen]
    _ = s.reg r := h.reg r hr

end StepKeeps

/-- Settles O37: each is one write of I after the fetch. -/
theorem indexLoadsAndAdds : Obligations.IndexLoadsAndAdds := by
  refine ⟨fun w hop => decodeWord_of_formatA hop rfl,
    fun w hop hkk => decodeWord_of_formatRK_selector hop hkk rfl,
    fun s => ⟨fun nnn => ?_, fun x => ?_⟩⟩
  · exact ⟨_, rfl, zext16_toNat nnn, (StepKeeps.afterFetch ..).setIndex _ (by simp)⟩
  · exact ⟨_, rfl, indexSum_toNat s.i (s.reg x),
      (StepKeeps.afterFetch ..).setIndex _ (by simp)⟩

theorem exec_ldF (x : Nibble) (s : State) : exec (.ldF x) s = .next
    ({ s.afterFetch with i := (glyphAddress (s.reg x)).getD s.i }.endStep false) := rfl

/-- Settles O38: one write of I, of the glyph's address or of I itself. -/
theorem glyphLoadPointsIndexAtTheFont : Obligations.GlyphLoadPointsIndexAtTheFont := by
  refine ⟨fun w hop hkk => decodeWord_of_formatRK_selector hop hkk rfl, fun x s => ?_⟩
  refine ⟨_, exec_ldF x s, fun hlt => ?_, fun hge => ?_,
    (StepKeeps.afterFetch ..).setIndex _ (by simp)⟩
  · simp only [glyphAddress_of_lt hlt, Option.getD_some, State.endStep_i, BitVec.toNat_ofNat]
    omega
  · simp [glyphAddress_of_ge hge]

/-! ### The stores at I (R203, R204) -/

section

variable {f : State → List Byte} {s : State} {bs : List Byte}

/-- A STEP that stores a block at I with the block inside memory completes and writes memory
alone: byte `k` of the block at I + `k`, every other byte as before. -/
theorem storeStep_of_fits (hbs : f s.afterFetch = bs) (hm : s.mem.wf = true)
    (h : s.i.toNat + bs.length ≤ Config.memSize) :
    ∃ m, runChecked false (fun u => storeAtI (f u) u) s
        = .next ({ s.afterFetch with mem := m }.endStep false)
      ∧ (∀ k (hk : k < bs.length), m.read (s.i.toNat + k) = bs[k])
      ∧ ∀ a, a < s.i.toNat ∨ s.i.toNat + bs.length ≤ a → m.read a = s.mem.read a := by
  subst hbs
  obtain ⟨m, e, -, hread⟩ := storeAtI_ok (t := s.afterFetch) hm h
  refine ⟨m, runChecked_of_ok e, fun k hk => ?_, fun a ha => ?_⟩
  · simp [hread, hk]
  · rw [hread]
    rcases ha with ha | ha
    · simp [Nat.not_le.mpr ha]
    · simp [List.getElem?_eq_none (Nat.le_sub_of_add_le' ha)]

/-- A STEP that stores a block at I that does not fit halts with the first address outside
memory (R274). -/
theorem storeStep_halts (hbs : f s.afterFetch = bs) (hne : bs ≠ [])
    (h : Config.memSize < s.i.toNat + bs.length) :
    runChecked false (fun u => storeAtI (f u) u) s
      = .next (haltedAfterFetch ⟨.memoryOutOfRange, firstOutside s.i.toNat⟩ s) := by
  subst hbs
  exact runChecked_of_error (storeAtI_halt (t := s.afterFetch) hne h)

end

/-- No digit of a byte is reduced: each is below 10 (R203). -/
theorem bcdDigits_eq (a : Byte) : ∃ hundreds tens ones, bcdDigits a = [hundreds, tens, ones]
    ∧ hundreds.toNat = a.toNat / 100 ∧ tens.toNat = a.toNat / 10 % 10
    ∧ ones.toNat = a.toNat % 10 := by
  have := a.isLt
  refine ⟨_, _, _, rfl, ?_, ?_, ?_⟩ <;> rw [BitVec.toNat_ofNat] <;> omega

/-- Settles O39: the block of the three digits, inside memory or not. -/
theorem bcdStoresThreeDigits : Obligations.BcdStoresThreeDigits := by
  refine ⟨fun w hop hkk => decodeWord_of_formatRK_selector hop hkk rfl, fun x s hm => ?_⟩
  obtain ⟨hundreds, tens, ones, hdigits, hhundreds, htens, hones⟩ := bcdDigits_eq (s.reg x)
  refine ⟨fun hfit => ?_, fun hout => ?_⟩
  · obtain ⟨m, hexec, hstored, hother⟩ :=
      storeStep_of_fits (f := fun u => bcdDigits (u.reg x)) hdigits hm hfit
    have h0 : m.read s.i.toNat = hundreds := hstored 0 (by simp)
    have h1 : m.read (s.i.toNat + 1) = tens := hstored 1 (by simp)
    have h2 : m.read (s.i.toNat + 2) = ones := hstored 2 (by simp)
    exact ⟨_, hexec, h0 ▸ hhundreds, h1 ▸ htens, h2 ▸ hones, hother,
      (StepKeeps.afterFetch ..).setMem m (by simp)⟩
  · exact storeStep_halts (f := fun u => bcdDigits (u.reg x)) hdigits (List.cons_ne_nil _ _)
      (Nat.lt_succ_of_le hout)

/-- Settles O40: the block of V0 to Vx, inside memory or not. -/
theorem blockStoreWritesV0ToVx : Obligations.BlockStoreWritesV0ToVx := by
  refine ⟨fun w hop hkk => decodeWord_of_formatRK_selector hop hkk rfl,
    fun x s hm => ⟨fun hfit => ?_, fun hout => ?_⟩⟩
  · obtain ⟨m, hexec, -, hstored, hother⟩ := exec_storeRegs_of_fits hm hfit
    exact ⟨_, hexec, hstored, hother, (StepKeeps.afterFetch ..).setMem m (by simp)⟩
  · refine storeStep_halts (f := fun u => regsUpTo u x) (bs := regsUpTo s x) rfl
      (List.ne_nil_of_length_eq_add_one (length_regsUpTo s x)) ?_
    rw [length_regsUpTo]
    exact Nat.lt_succ_of_le hout

/-! ### The block load (R205) -/

/-- LD Vx, [I] with its block inside memory completes and writes V0 to Vx alone, from I to
I + x. -/
theorem exec_loadRegs_of_fits {x : Nibble} {s : State} (h : s.i.toNat + x.val < Config.memSize) :
    ∃ t, exec (.loadRegs x) s = .next t
      ∧ (∀ k : Nibble, k ≤ x → t.reg k = s.mem.read (s.i.toNat + k.val))
      ∧ StepKeeps false ((List.range (x.val + 1)).map fun k => .reg (Fin.ofNat 16 k)) s t := by
  refine ⟨_, runChecked_of_ok (loadFromI_ok (t := s.afterFetch) (.inr h)), fun k hk => ?_,
    (StepKeeps.afterFetch ..).setRegsFrom_zero _ fun r hr => ?_⟩
  · have hkx : k.val < x.val + 1 := Nat.lt_succ_of_le hk
    simp [reg_setRegsFrom, hkx]
  · have hrx : r.val < x.val + 1 := by simpa using hr
    exact List.mem_map.mpr ⟨r.val, List.mem_range.mpr hrx, by simp⟩

/-- Settles O41: the block of x + 1 bytes, inside memory or not. -/
theorem blockLoadReadsV0ToVx : Obligations.BlockLoadReadsV0ToVx :=
  ⟨fun _ hop hkk => decodeWord_of_formatRK_selector hop hkk rfl,
    fun x s => ⟨exec_loadRegs_of_fits, fun hout => runChecked_of_error
      (loadFromI_halt (t := s.afterFetch) (Nat.succ_ne_zero x.val) (Nat.lt_succ_of_le hout))⟩⟩

/-- Settles O42: the load reads each byte at I + k where the store wrote V[k]. -/
theorem blockStoreThenLoadRoundTrips : Obligations.BlockStoreThenLoadRoundTrips := by
  intro x s hm hfit
  obtain ⟨m, hstore, -, hstored, -⟩ := exec_storeRegs_of_fits hm hfit
  refine ⟨_, hstore, fun u hmem hi => ?_⟩
  obtain ⟨u', hload, hloaded, -⟩ := exec_loadRegs_of_fits (x := x) (s := u) (hi ▸ hfit)
  refine ⟨u', hload, fun k hk => ?_⟩
  calc u'.reg k
      = u.mem.read (u.i.toNat + k.val) := hloaded k hk
    _ = m.read (s.i.toNat + k.val) := by rw [hmem, hi]; rfl
    _ = s.reg k := hstored k hk

end Sys2Proof.Machine

namespace Sys2Proof.Machine

/-! ### The framebuffer -/

namespace StepKeeps

variable {s t u : State} {d : Bool} {changed : List Part}

theorem setFrame (h : StepKeeps d changed s (u.endStep d)) (f : Frame) (hf : .fb ∈ changed) :
    StepKeeps d changed s ({ u with fb := f }.endStep d) :=
  { h with fb := absurd hf }

/-- A step that leaves I, memory and the coordinate registers alone leaves the sprite of a DRW
where it was (R230, R231). -/
theorem spriteCovers_iff {x y : Nibble} (h : StepKeeps d changed s t) (hx : .reg x ∉ changed)
    (hy : .reg y ∉ changed) (hi : .i ∉ changed) (hm : .mem ∉ changed) (n : Nibble) (p : Nat) :
    spriteCovers t x y n p ↔ spriteCovers s x y n p := by
  simp only [spriteCovers, h.reg x hx, h.reg y hy, h.i hi, h.mem hm, h.drawClip]

end StepKeeps

/-- Settles O44: one write of the framebuffer after the fetch. -/
theorem clearScreenClearsEveryPixel : Obligations.ClearScreenClearsEveryPixel :=
  ⟨decodeWord_encode .cls, fun _ =>
    ⟨_, rfl, Frame.pixel_blank, (StepKeeps.afterFetch ..).setFrame _ (by simp)⟩⟩

theorem inFrame_linear_iff (r c : Nat) : inFrame .linear r c = true ↔ r * 64 + c < 2048 := by
  simp [inFrame]

theorem inFrame_axis_iff (r c : Nat) : inFrame .axis r c = true ↔ r < 32 ∧ c < 64 := by
  simp [inFrame]

/-- Settles O45: the two bounds, compared by whether the column is inside its row. -/
theorem clippingReadingsAgreeUnlessTheSpriteOverhangs :
    Obligations.ClippingReadingsAgreeUnlessTheSpriteOverhangs := by
  refine fun r c => ⟨inFrame_linear_iff r c, inFrame_axis_iff r c, fun hc => ?_,
    fun hc hc' hr => ⟨?_, ?_, ?_⟩⟩
  · rw [Bool.eq_iff_iff, inFrame_linear_iff, inFrame_axis_iff]
    omega
  · rw [inFrame_linear_iff]
    omega
  · omega
  · rw [← Bool.not_eq_true, inFrame_axis_iff]
    omega

/-- A DRW whose rows are inside memory completes, writes the framebuffer and VF alone, toggles the
pixels its sprite covers, and collides when one of them was lit before (R233). -/
theorem exec_drw_of_fits {x y n : Nibble} {s : State}
    (h : n.val = 0 ∨ s.i.toNat + n.val ≤ Config.memSize) :
    ∃ t hit, exec (.drw x y n) s = .next t
      ∧ (∀ p, (spriteCovers s x y n p → t.fb.pixel p = !s.fb.pixel p)
        ∧ (¬ spriteCovers s x y n p → t.fb.pixel p = s.fb.pixel p))
      ∧ t.reg vf = collisionFlag hit
      ∧ (hit = true ↔ ∃ p, spriteCovers s x y n p ∧ s.fb.pixel p = true)
      ∧ StepKeeps true [.fb, .reg vf] s t := by
  obtain ⟨hpixel, hhit⟩ := drawRows_spec s.drawClip (spriteColumn (s.reg x))
    (spriteRow (s.reg y)) ((List.range n.val).map fun k => s.mem.read (s.i.toNat + k)) s.fb
  simp only [mem_spritePlots_iff_covers] at hhit
  refine ⟨_, _, runChecked_of_ok (drawEffect_ok (t := s.afterFetch) h), fun p => ?_,
    State.reg_setReg_same .., hhit,
    ((StepKeeps.afterFetch ..).setReg _ (by simp)).setFrame _ (by simp)⟩
  have hmem := mem_spritePlots_iff_covers s x y n p
  exact ⟨fun hp => (hpixel p).trans (by simp [hmem.mpr hp]),
    fun hp => (hpixel p).trans (by simp [mt hmem.mp hp])⟩

/-- Settles O46: the rows inside memory, or not. -/
theorem drawTogglesCoveredPixelsAndReportsCollision :
    Obligations.DrawTogglesCoveredPixelsAndReportsCollision := by
  refine ⟨fun w hop => decodeWord_of_formatRR hop rfl (.encoded (.drw _ _ _)),
    fun x y n s => ⟨fun hfit => ?_, fun hn hout => ?_⟩⟩
  · obtain ⟨t, hit, ht, hpixel, hvf, hhit, keeps⟩ := exec_drw_of_fits (x := x) (y := y) hfit
    refine ⟨t, ht, hpixel, fun hc => ?_, fun hc => ?_, keeps⟩
    · rw [hvf, hhit.mpr hc]
      rfl
    · rw [hvf, Bool.eq_false_iff.mpr (mt hhit.mp hc)]
      rfl
  · exact runChecked_of_error (drawEffect_halt (t := s.afterFetch) hn hout)

theorem collisionFlag_eq_one_iff (hit : Bool) : collisionFlag hit = 1 ↔ hit = true := by
  cases hit <;> decide

/-- Settles O47: the sprite of the second draw is that of the first, so each covered pixel is
toggled twice, and meets the second draw with the value opposite to its first. -/
theorem drawingTwiceRestoresTheFramebuffer : Obligations.DrawingTwiceRestoresTheFramebuffer := by
  intro x y n s hx hy hfit
  obtain ⟨t, _, ht, hfirst, -, -, keeps⟩ := exec_drw_of_fits (x := x) (y := y) hfit
  have hcovers : ∀ p, spriteCovers t x y n p ↔ spriteCovers s x y n p :=
    keeps.spriteCovers_iff (by simpa using hx) (by simpa using hy) (by simp) (by simp) n
  have hi : t.i = s.i := keeps.i (by simp)
  obtain ⟨u, hit, hu, hsecond, hvf, hhit, -⟩ := exec_drw_of_fits (x := x) (y := y) (hi ▸ hfit)
  simp only [hcovers] at hsecond hhit
  refine ⟨t, u, ht, hu, fun p => ?_, ?_⟩
  · by_cases hp : spriteCovers s x y n p
    · rw [(hsecond p).1 hp, (hfirst p).1 hp, Bool.not_not]
    · rw [(hsecond p).2 hp, (hfirst p).2 hp]
  · rw [hvf, collisionFlag_eq_one_iff, hhit]
    refine exists_congr fun p => and_congr_right fun hp => ?_
    rw [(hfirst p).1 hp, Bool.not_eq_true']

end Sys2Proof.Machine

namespace Sys2Proof.Machine

/-! ### Keys and timers -/

namespace StepKeeps

variable {s u : State} {d : Bool} {changed : List Part}

theorem setDt (h : StepKeeps d changed s (u.endStep d)) (b : Byte) (hdt : .dt ∈ changed) :
    StepKeeps d changed s ({ u with dt := b }.endStep d) :=
  { h with dt := absurd hdt }

theorem setSt (h : StepKeeps d changed s (u.endStep d)) (b : Byte) (hst : .st ∈ changed) :
    StepKeeps d changed s ({ u with st := b }.endStep d) :=
  { h with st := absurd hst }

theorem setRun (h : StepKeeps d changed s (u.endStep d)) (r : RunState) (hr : .run ∈ changed) :
    StepKeeps d changed s ({ u with run := r }.endStep d) :=
  { h with run := absurd hr }

end StepKeeps

theorem exec_ldVxK (x : Nibble) (s : State) : exec (.ldVxK x) s = .next
    ({ s.afterFetch with run := .awaitKey x }.endStep false) := rfl

/-! ### Any number of ticks, and the delivery of a key (R277, R278) -/

theorem iterate_tickTimer_toNat (n : Nat) : ∀ t : Byte,
    (tickTimer^[n] t).toNat = t.toNat - n := by
  induction n with
  | zero => exact fun _ => rfl
  | succ n ih =>
    intro t
    rw [Function.iterate_succ_apply, ih, tickTimer_toNat]
    omega

/-- Ticks outside HALTED change the timers alone. -/
theorem transactAll_ticks (n : Nat) : ∀ s : State, s.isHalted = false →
    transactAll (List.replicate n .timerTick) s
      = .next { s with dt := tickTimer^[n] s.dt, st := tickTimer^[n] s.st } := by
  induction n with
  | zero => exact fun _ _ => rfl
  | succ n ih =>
    intro s hs
    have htick : transact .timerTick s
        = .next { s with dt := tickTimer s.dt, st := tickTimer s.st } :=
      congrArg Host.Outcome.next (timerTick_running hs)
    rw [List.replicate_succ, transactAll_cons htick]
    exact ih _ hs

/-- A key pressed after any number of ticks in AWAIT_KEY(x) is delivered to V[x]. -/
theorem transactAll_ticks_keyDown {s : State} {x : Nibble} (h : s.run = .awaitKey x) (n : Nat)
    (k : Nibble) : transactAll (List.replicate n .timerTick ++ [.keyDown k]) s
      = .next { (s.setReg x (BitVec.ofNat 8 k.val)).clearKeys with
          dt := tickTimer^[n] s.dt, st := tickTimer^[n] s.st, run := .running } := by
  have hs : s.isHalted = false := by simp only [State.isHalted, h]
  rw [transactAll_append (transactAll_ticks n s hs)]
  exact congrArg Host.Outcome.next (keyDown_awaitKey h)

/-- Settles O51: the wait writes the run state, the ticks the timers, and the delivery V[x], the
keys and the run state. -/
theorem deliveredKeyEndsTheWait : Obligations.DeliveredKeyEndsTheWait := by
  intro x k s ticks
  refine ⟨_, _, exec_ldVxK x s, transactAll_ticks_keyDown rfl ticks k, rfl, ?_, fun r hr => ?_,
    rfl, State.key_clearKeys s, iterate_tickTimer_toNat ticks s.dt, rfl, rfl⟩
  · calc ((s.setReg x (BitVec.ofNat 8 k.val)).reg x).toNat
        = k.val % 256 := by rw [State.reg_setReg_same, BitVec.toNat_ofNat]
      _ = k.val := Nat.mod_eq_of_lt (by omega)
  · exact State.reg_setReg_ne (s := s) _ hr

/-- Settles O50: one write of the run state after the fetch. -/
theorem waitForKeyEntersAwaitKey : Obligations.WaitForKeyEntersAwaitKey :=
  ⟨fun _ hop hkk => decodeWord_of_formatRK_selector hop hkk rfl, fun x s =>
    ⟨_, exec_ldVxK x s, rfl, (StepKeeps.afterFetch ..).setRun _ (by simp)⟩⟩

/-- The sound output is on exactly when ST is not 0 (R279). -/
theorem State.soundOn_iff (s : State) : s.soundOn = true ↔ s.st ≠ 0 := bne_iff_ne

/-- Settles O49: each is one write of a byte after the fetch, to V[x], to DT or to ST. -/
theorem timerInstructionsMoveOneByte : Obligations.TimerInstructionsMoveOneByte := by
  refine ⟨fun w hop => ⟨?_, ?_, ?_⟩, fun x s => ⟨destination_of_exec rfl, ?_, ?_⟩⟩
  · exact fun hkk => decodeWord_of_formatRK_selector hop hkk rfl
  · exact fun hkk => decodeWord_of_formatRK_selector hop hkk rfl
  · exact fun hkk => decodeWord_of_formatRK_selector hop hkk rfl
  · exact ⟨_, rfl, rfl, (StepKeeps.afterFetch ..).setDt _ (by simp)⟩
  · exact ⟨_, rfl, rfl, State.soundOn_iff _, (StepKeeps.afterFetch ..).setSt _ (by simp)⟩

/-- A key skip on a register that names key `k` skips when the key is in the state `pressed`. -/
theorem keyStep_of_key {x k : Nibble} {s : State} (pressed : Bool)
    (hk : (s.reg x).toNat = k.val) : runChecked false (skipOnKey x pressed) s
      = .next ((s.afterFetch.skipIf (s.key k == pressed)).endStep false) :=
  runChecked_of_ok (skipOnKey_ok (t := s.afterFetch) hk)

/-- A key skip on a register that names no key halts. -/
theorem keyStep_halts {x : Nibble} {s : State} (pressed : Bool) (hk : 16 ≤ (s.reg x).toNat) :
    runChecked false (skipOnKey x pressed) s
      = .next (haltedAfterFetch ⟨.keyIndexOutOfRange, (s.reg x).toNat⟩ s) :=
  runChecked_of_error (skipOnKey_halt (t := s.afterFetch) hk)

/-- Settles O48: both are skips, on the key pressed or released, when V[x] names a key. -/
theorem keySkipsTestTheKeyVxNames : Obligations.KeySkipsTestTheKeyVxNames := by
  refine ⟨fun w hop hkk => decodeWord_of_formatRK_selector hop hkk rfl,
    fun w hop hkk => decodeWord_of_formatRK_selector hop hkk rfl,
    fun x s => ⟨fun k hk => ⟨?_, ?_⟩, fun hk => ⟨keyStep_halts true hk, keyStep_halts false hk⟩⟩⟩
  · simpa using skip_of_exec (i := .skp x) (keyStep_of_key true hk)
  · obtain ⟨t, ht, hpc, keeps⟩ := skip_of_exec (i := .sknp x) (keyStep_of_key false hk)
    refine ⟨t, ht, hpc.trans ?_, keeps⟩
    cases s.key k <;> rfl

end Sys2Proof.Machine

namespace Sys2Proof.Machine

/-! ### Halts (R272, R273) -/

/-- Settles O11: the step halts in the fetch, on a rejected word, or in the execute phase, and the
last two leave the same state. -/
theorem haltLeavesTheStateAsTheFetchLeftIt : Obligations.HaltLeavesTheStateAsTheFetchLeftIt := by
  intro s t why a h ht
  obtain ⟨hrun, ⟨why', hf, rfl⟩ | ⟨w, e, hf, -, rfl⟩ | ⟨w, i, hf, -, hx⟩⟩ := step_cases h
  · cases ht
    exact .inl ⟨hf, rfl⟩
  · cases ht
    exact .inr ⟨⟨w, hf⟩, rfl⟩
  · rcases exec_run hx with ⟨hr, -⟩ | ⟨why', -, rfl⟩
    · have hs := isHalted_eq_false_of_completed hrun hr
      simp [State.isHalted, ht] at hs
    · cases ht
      exact .inr ⟨⟨w, hf⟩, rfl⟩

/-- Settles O18: of the listed transitions of the run state (R33), only RESET starts in HALTED. -/
theorem haltedIsLeftOnlyByReset : Obligations.HaltedIsLeftOnlyByReset := by
  intro s why a hr
  have hs : s.isHalted = true := by simp only [State.isHalted, hr]
  refine ⟨(stepHasNoTransitionWhileWaitingOrHalted s).2 why a hr,
    fun k => congrArg Host.Outcome.next (keyDown_halted hr),
    congrArg Host.Outcome.next (timerTick_halted hs), fun p => ⟨_, rfl, rfl⟩, fun tr t h => ?_⟩
  by_cases hne : t.run = s.run
  · exact .inl hne
  · rcases runStateChangesOnlyByTheListedTransitions tr s t h hne with
      ⟨hrun, -⟩ | ⟨r, k, hrun, -⟩ | ⟨hrun, -⟩ | ⟨p, hp, -⟩
    · simp [hr] at hrun
    · simp [hr] at hrun
    · simp [hr] at hrun
    · exact .inr ⟨p, hp⟩

/-! ### KEY_DOWN and TIMER_TICK in each run state (R277, R278) -/

/-- The byte KEY_DOWN delivers holds the key's number. -/
theorem keyByte_toNat (k : Nibble) : (BitVec.ofNat 8 k.val).toNat = k.val := by
  rw [BitVec.toNat_ofNat, Nat.mod_eq_of_lt (by omega)]

/-- After key `k` is pressed, it and the keys pressed before are. -/
theorem State.key_press (s : State) (k j : Nibble) :
    { s with keys := s.keys.set k true }.key j = (decide (j = k) || s.key j) := by
  by_cases h : j = k
  · simp [State.key, h]
  · have hval : k.val ≠ j.val := fun e => h (Fin.ext e.symm)
    simp [State.key, h, hval]

/-- Settles O52: by the run state, one press, one delivery or nothing. -/
theorem keyDownPressesOrDelivers : Obligations.KeyDownPressesOrDelivers := by
  refine fun k s => ⟨_, rfl, fun hr => ?_, fun r hr => ?_, fun _ _ hr => keyDown_halted hr⟩
  · rw [keyDown_running hr]
    exact ⟨State.key_press s k, rfl⟩
  · rw [keyDown_awaitKey hr]
    refine ⟨?_, State.key_clearKeys s, rfl, fun q hq => State.reg_setReg_ne (s := s) _ hq, rfl⟩
    calc ((s.setReg r (BitVec.ofNat 8 k.val)).reg r).toNat
        = (BitVec.ofNat 8 k.val).toNat := by rw [State.reg_setReg_same]
      _ = k.val := keyByte_toNat k

/-- Settles O53: outside HALTED both timers take one `tickTimer`; in HALTED nothing is written. -/
theorem timerTickDecrementsNonzeroTimers : Obligations.TimerTickDecrementsNonzeroTimers := by
  refine fun s => ⟨_, rfl, fun hs => ?_, timerTick_halted⟩
  rw [timerTick_running hs]
  exact ⟨tickTimer_toNat s.dt, tickTimer_toNat s.st, rfl⟩

end Sys2Proof.Machine

namespace Sys2Proof.Machine

/-! ### The bytes of a RESET (R36, R65) -/

/-- Below 0x050 INIT and FONT give the font's byte. -/
theorem Init.memByte_font (p : Init) {a : Nat} (h : a < 80) : p.memByte a = p.font[a] :=
  dif_pos h

/-- From 0x050 on they give the byte of the rest of memory. -/
theorem Init.memByte_ram (p : Init) {a : Nat} (h : a < 4016) :
    p.memByte (0x050 + a) = p.ram[a] := by
  have hfont : ¬ 0x050 + a < 80 := by omega
  simp [Init.memByte, hfont, h]

/-- Settles O54: memory reads as FONT and INIT list it; the other elements are set directly. -/
theorem resetSetsTheResetValues : Obligations.ResetSetsTheResetValues := by
  refine fun p s => ⟨resetWith p s, rfl, rfl, resetWith_sp p s, rfl, rfl, rfl,
    fun a h => ?_, fun a h => ?_, rfl, rfl, rfl, rfl, rfl, rfl, rfl⟩
  · rw [resetWith_read p s (by omega), p.memByte_font h]
  · rw [resetWith_read p s (by omega), p.memByte_ram h]

/-! ### The program image (R301) -/

/-- Outside HALTED an image that fits is in memory byte by byte from 0x200, every other byte is as
before, and memory alone is written. -/
theorem loadProgram_writes {image : List Byte} {s : State} (hm : s.mem.wf = true)
    (h : image.length ≤ 3584) (hs : s.isHalted = false) :
    ∃ m, loadProgram image s = .next { s with mem := m }
      ∧ (∀ k (hk : k < image.length), m.read (0x200 + k) = image[k])
      ∧ ∀ a, a < 0x200 ∨ 0x200 + image.length ≤ a → m.read a = s.mem.read a := by
  obtain ⟨m, hload, -, hread⟩ := loadProgram_ok h hs hm
  refine ⟨m, hload, fun k hk => ?_, fun a ha => ?_⟩
  · simp [hread, hk]
  · rw [hread]
    rcases ha with hbelow | habove
    · rw [if_neg (Nat.not_le.mpr hbelow)]
    · simp [List.getElem?_eq_none (Nat.le_sub_of_add_le' habove)]

/-- Settles O56: by the length of the image and whether the CORE is HALTED. -/
theorem loadProgramWritesTheImage : Obligations.LoadProgramWritesTheImage := by
  refine fun image s hm => ⟨fun hfit hs => ?_, loadProgram_halted, loadProgram_tooLong⟩
  obtain ⟨m, hload, himage, hother⟩ := loadProgram_writes hm hfit hs
  exact ⟨_, hload, himage, hother, rfl⟩

end Sys2Proof.Machine
